-- ==== Sys2Proof/Word.lean ====
section
/-! DEFINITION. The word of the block: one byte (R6, R9, R42). No quantity of the block is wider. -/

namespace Sys2Proof

/-- One hardware byte, bits 7 (most significant) to 0 (R9). In a column byte, a framebuffer cell and a display datum,
bit 0 is the top row of the page and bit 7 the bottom row (R41). -/
abbrev Byte := BitVec 8

end Sys2Proof
end

