-- ==== Sys2Proof/Config.lean ====
section
/-! DEFINITION. The parameters of the block (R5 to R8) and its free values: constants with no body, of which nothing
can be proved. -/

namespace Sys2Proof

/-- WIDTH, the columns of the display (R5). The spec allows a named parameter with default 50; the model takes the
default. DESIGN CHOICE, log 9. -/
def Config.width : Nat := 50

/-- PAGES, the pages of the display and of the buffer (R5): fixed. -/
def Config.pages : Nat := 2

/-- PAGE_ROWS, the pixel rows of one page (R5): fixed. -/
def Config.pageRows : Nat := 8

/-- HEIGHT = PAGES * PAGE_ROWS pixel rows (R5). -/
def Config.height : Nat := Config.pages * Config.pageRows

/-- VFB_BYTES = PAGES * WIDTH, the cells of the virtual framebuffer (R7). -/
def Config.vfbBytes : Nat := Config.pages * Config.width

/-- H, the image height of the reel pseudo-instructions (R8, R160). -/
def Config.reelHeight : Nat := 8

/-- N, the image count of a reel: a parameter of the caller, default 12 (R8, D24). -/
def Config.reelImages : Nat := 12

/-- FREE VALUE. The byte that cell `index` of VFB holds after the reset numbered `resets`, until something is written
to it: "each cell holds some byte the spec does not give" (R29, R220, D18). No body: a claim holds whatever it is.
Log 1. -/
opaque Config.vfbAtReset (resets index : Nat) : Byte

/-- FREE VALUE. The byte that a cell of the reference display holds before anything was written to it (R54: "Initial
DISP and cursor: unspecified"). The cell of (column, page) has the number (page-1)*WIDTH + (column-1). Log 15. -/
opaque Config.displayBefore (cell : Nat) : Byte

end Sys2Proof
end

