-- ==== Sys2Proof/Syntax.lean ====
section
/-! DEFINITION. The five commands of the block (R69), one constructor per row of the opcode table. -/

namespace Sys2Proof

/-- One command with its fixed operands in stream order (R61, R68: each one byte, an unsigned number) and, for the two
formats that carry column data, its payload. A term may hold operands out of their range: the command's own meaning
checks them (R182). A header whose check fails is written with an empty payload, since no payload byte is consumed
for it (R67, R183). -/
inductive Instr where
  /-- `PLACE_COLUMN x, y, col`: format C, opcode 0x01 (R62, R110). -/
  | placeColumn (x y col : Byte)
  /-- `PLACE_IMAGE x, y, n, [c]`: format I, opcode 0x02 (R63, R111). -/
  | placeImage (x y n : Byte) (c : List Byte)
  /-- `CLEAR size`: format S, opcode 0x03 (R64, R130). -/
  | clear (size : Byte)
  /-- `OR_PLACE W, n, x, y, [c]`: format B, opcode 0x04 (R65, R131). -/
  | orPlace (w n x y : Byte) (c : List Byte)
  /-- `FLUSH W, x`: format F, opcode 0x05 (R66, R132). -/
  | flush (w x : Byte)
  deriving DecidableEq, Repr

end Sys2Proof
end

