-- ==== Sys2Proof/Machine/Operands.lean ====
section
/-! DEFINITION. The causes of a fault (R181) and the operand checks of every command, complete and in their order
(R182). -/

namespace Sys2Proof.Machine

/-- The causes of a fault (R181). -/
inductive Cause where
  /-- 0x01: the opcode byte selects no command (R70). -/
  | illegalOpcode
  /-- 0x02: `x` is 0 or beyond the row. -/
  | xRange
  /-- 0x03: `y` is 0 or above HEIGHT. -/
  | yRange
  /-- 0x04: `n` is 0. -/
  | countRange
  /-- 0x05: `W` is 0 or above WIDTH. -/
  | widthRange
  /-- 0x06: `size` is above VFB_BYTES. -/
  | sizeRange
  /-- 0x07: the run of columns passes the end of the row. -/
  | extentRange
  deriving DecidableEq, Repr

/-- One operand check: whether it passes, and the cause it raises when it does not. -/
abbrev Check := Bool × Cause

/-- `lo <= v <= hi`. -/
def within (lo v hi : Nat) : Bool := decide (lo ≤ v) && decide (v ≤ hi)

/-- "The first check that fails raises its fault and the later checks are not made" (R182). -/
def firstFailure : List Check → Option Cause
  | [] => none
  | (passes, cause) :: later => if passes then firstFailure later else some cause

/-- R182, row PLACE_COLUMN. -/
def placeColumnChecks (x y : Byte) : List Check :=
  [(within 1 x.toNat Config.width, .xRange),
   (within 1 y.toNat Config.height, .yRange)]

/-- R182, row PLACE_IMAGE. The extent is computed without wrap (R97). -/
def placeImageChecks (x y n : Byte) : List Check :=
  [(within 1 x.toNat Config.width, .xRange),
   (within 1 y.toNat Config.height, .yRange),
   (decide (1 ≤ n.toNat), .countRange),
   (decide (x.toNat + n.toNat - 1 ≤ Config.width), .extentRange)]

/-- R182, row CLEAR. -/
def clearChecks (size : Byte) : List Check :=
  [(decide (size.toNat ≤ Config.vfbBytes), .sizeRange)]

/-- R182, row OR_PLACE. Here `x` is a buffer column, so its bound is `W`. -/
def orPlaceChecks (w n x y : Byte) : List Check :=
  [(within 1 w.toNat Config.width, .widthRange),
   (decide (1 ≤ n.toNat), .countRange),
   (within 1 x.toNat w.toNat, .xRange),
   (within 1 y.toNat Config.height, .yRange),
   (decide (x.toNat + n.toNat - 1 ≤ w.toNat), .extentRange)]

/-- R182, row FLUSH. -/
def flushChecks (w x : Byte) : List Check :=
  [(within 1 w.toNat Config.width, .widthRange),
   (within 1 x.toNat Config.width, .xRange),
   (decide (x.toNat + w.toNat - 1 ≤ Config.width), .extentRange)]

/-- The table of R182: the checks of a command, in the row's order. -/
def operandChecks : Instr → List Check
  | .placeColumn x y _ => placeColumnChecks x y
  | .placeImage x y n _ => placeImageChecks x y n
  | .clear size => clearChecks size
  | .orPlace w n x y _ => orPlaceChecks w n x y
  | .flush w x => flushChecks w x

/-- The fault a command's operands raise, if any (R182). Payload bytes and `col` are never checked. -/
def operandFault (i : Instr) : Option Cause := firstFailure (operandChecks i)

end Sys2Proof.Machine
end

