-- ==== Sys2Proof/WellFormed.lean ====
section
/-! DEFINITION. Which terms of `Instr` are commands of the block: operands in range and a payload of exactly `n`
bytes (R61, R182). -/

namespace Sys2Proof

/-- The payload is exactly `n` bytes (R61). -/
def payloadFits : Instr → Bool
  | .placeImage _ _ n c => decide (c.length = n.toNat)
  | .orPlace _ n _ _ c => decide (c.length = n.toNat)
  | .placeColumn _ _ _ => true
  | .clear _ => true
  | .flush _ _ => true

/-- A command with in-range operands and its whole payload: what the decoder answers as complete (R74(a)). -/
def wellFormed (i : Instr) : Bool := (Machine.operandFault i).isNone && payloadFits i

end Sys2Proof
end

