-- ==== Sys2Proof/Decode.lean ====
section
/-! DEFINITION. The decoder of the command stream, total on any bytes (R67, R74), and the encoder (R61 to R66), both
written from the format tables; then the host's reading of a table word. -/

namespace Sys2Proof

/-- What the decoder answers from a command boundary: exactly one of the three of R74. -/
inductive Decoded where
  /-- A complete command with its operands and payload, and the rest of the bytes. -/
  | command (i : Instr) (rest : List Byte)
  /-- A fault cause: a reserved opcode (R70, no header), or a complete header with an operand out of range (R182). No
  payload byte is consumed: `rest` begins right after the opcode or the header. -/
  | rejected (cause : Machine.Cause) (header : Option Instr) (rest : List Byte)
  /-- The bytes end before the command does (R73). -/
  | incomplete
  deriving DecidableEq, Repr

/-- The header of a command has arrived: make its operand checks (R182, "when the last fixed operand byte has
arrived"); if they pass, go on with the payload. -/
def afterHeader (header : Instr) (rest : List Byte) (payload : Decoded) : Decoded :=
  match Machine.operandFault header with
  | some cause => .rejected cause (some header) rest
  | none => payload

/-- Take a payload of `n` bytes (R61), or wait for it (R73). -/
def takePayload (n : Nat) (make : List Byte → Instr) (bytes : List Byte) : Decoded :=
  if n ≤ bytes.length then .command (make (bytes.take n)) (bytes.drop n) else .incomplete

/-- Format C after the opcode: x, y, col (R62). -/
def decodeC : List Byte → Decoded
  | x :: y :: col :: rest => afterHeader (.placeColumn x y col) rest (.command (.placeColumn x y col) rest)
  | _ => .incomplete

/-- Format I after the opcode: x, y, n, then n payload bytes (R63). -/
def decodeI : List Byte → Decoded
  | x :: y :: n :: rest => afterHeader (.placeImage x y n []) rest (takePayload n.toNat (.placeImage x y n) rest)
  | _ => .incomplete

/-- Format S after the opcode: size (R64). -/
def decodeS : List Byte → Decoded
  | size :: rest => afterHeader (.clear size) rest (.command (.clear size) rest)
  | _ => .incomplete

/-- Format B after the opcode: W, n, x, y, then n payload bytes (R65). -/
def decodeB : List Byte → Decoded
  | w :: n :: x :: y :: rest =>
    afterHeader (.orPlace w n x y []) rest (takePayload n.toNat (.orPlace w n x y) rest)
  | _ => .incomplete

/-- Format F after the opcode: W, x (R66). -/
def decodeF : List Byte → Decoded
  | w :: x :: rest => afterHeader (.flush w x) rest (.command (.flush w x) rest)
  | _ => .incomplete

/-- The decoder from a command boundary (R67, R69, R70, R74). The opcode is matched by its whole value. -/
def decode : List Byte → Decoded
  | [] => .incomplete
  | op :: bytes =>
    if op = 0x01#8 then decodeC bytes
    else if op = 0x02#8 then decodeI bytes
    else if op = 0x03#8 then decodeS bytes
    else if op = 0x04#8 then decodeB bytes
    else if op = 0x05#8 then decodeF bytes
    else .rejected .illegalOpcode none bytes

/-- The opcode byte of a command (R69). -/
def opcodeByte : Instr → Byte
  | .placeColumn _ _ _ => 0x01#8
  | .placeImage _ _ _ _ => 0x02#8
  | .clear _ => 0x03#8
  | .orPlace _ _ _ _ _ => 0x04#8
  | .flush _ _ => 0x05#8

/-- The fixed operands of a command, in stream order (R62 to R66). -/
def fixedOperands : Instr → List Byte
  | .placeColumn x y col => [x, y, col]
  | .placeImage x y n _ => [x, y, n]
  | .clear size => [size]
  | .orPlace w n x y _ => [w, n, x, y]
  | .flush w x => [w, x]

/-- The payload of a command (R61). -/
def payload : Instr → List Byte
  | .placeImage _ _ _ c => c
  | .orPlace _ _ _ _ c => c
  | .placeColumn _ _ _ => []
  | .clear _ => []
  | .flush _ _ => []

/-- The bytes of a command: opcode byte, fixed operands, payload (R61). -/
def encode (i : Instr) : List Byte := opcodeByte i :: (fixedOperands i ++ payload i)

/-- The length of a command by its format: 4, 4 + n, 2, 5 + n, 3 (R62 to R67). -/
def formatLength : Instr → Nat
  | .placeColumn _ _ _ => 4
  | .placeImage _ _ n _ => 4 + n.toNat
  | .clear _ => 2
  | .orPlace _ n _ _ _ => 5 + n.toNat
  | .flush _ _ => 3

/-- The length of a command's header: the opcode byte and the fixed operands (R61). -/
def headerLength (i : Instr) : Nat := 1 + (fixedOperands i).length

/-- The bytes of the longest command there is: OR_PLACE with WIDTH columns (R65, R182). -/
def longestCommand : Nat := 5 + Config.width

/-- The bytes of a table word: bits 8k+7 .. 8k of `w` are stream byte k; the bits above `nbits` are 0, up to the
longest command. -/
def tableBytes (nbits w : Nat) : List Byte :=
  (List.range (max ((nbits + 7) / 8) longestCommand)).map
    fun k => BitVec.ofNat 8 ((w % 2 ^ nbits) / 2 ^ (8 * k))

/-- The instruction the decoder reads from a table word: a complete command, or the header of one whose operands its
meaning will reject; nothing for a reserved opcode. -/
def decodeTableWord (nbits w : Nat) : Option Instr :=
  match decode (tableBytes nbits w) with
  | .command i _ => some i
  | .rejected _ header _ => header
  | .incomplete => none

end Sys2Proof
end

