-- ==== Sys2Proof/Machine/Memory.lean ====
section
/-! DEFINITION. The contents of VFB space as a list of written cells in one canonical form (R21, R40): indices strictly
rising, each below VFB_BYTES. An unlisted cell holds no written value. -/

namespace Sys2Proof.Machine

/-- The written cells of the virtual framebuffer: pairs of an index and its byte. -/
abbrev Memory := List Host.Cell

/-- The byte written to cell `a`, or none if the cell is not listed: it then still holds what reset left (R29). -/
def Memory.find? : Memory → Nat → Option Byte
  | [], _ => none
  | (k, b) :: m, a => if k = a then some b else Memory.find? m a

/-- Write byte `v` to cell `a`, keeping the list in rising order. -/
def Memory.write : Memory → Nat → Byte → Memory
  | [], a, v => [(a, v)]
  | (k, b) :: m, a, v =>
    if a < k then (a, v) :: (k, b) :: m
    else if a = k then (a, v) :: m
    else (k, b) :: Memory.write m a v

/-- The indices rise strictly, starting at `lo` or above, and stay below VFB_BYTES. -/
def Memory.risesFrom : Nat → Memory → Bool
  | _, [] => true
  | lo, (k, _) :: m => decide (lo ≤ k) && decide (k < Config.vfbBytes) && Memory.risesFrom (k + 1) m

/-- The canonical form. No entry equals what an unlisted cell reads as in the list: an unlisted cell reads as none
there, and the free value of its reset byte is supplied by the one operation that reads a cell. Log 17. -/
def Memory.wf (m : Memory) : Bool := Memory.risesFrom 0 m

end Sys2Proof.Machine
end

