-- ==== Sys2Proof/Machine/State.lean ====
section
/-! DEFINITION. The state of the block as plain data, all that the spec gives it (R20 to R29), its inputs, and the two
kinds of stop. -/

namespace Sys2Proof.Machine

/-- One operation of the block to the display sink (R51). Columns and pages are 1-based. -/
inductive SinkOp where
  /-- Set the display's cursor to (col, page); writes no pixel (R52). -/
  | setCursor (col page : Nat)
  /-- Write one byte at the cursor, which then advances by one column (R53). -/
  | writeData (b : Byte)
  /-- Write one byte directly at (col, page), with no increment (R53). -/
  | writePixelAt (col page : Nat) (b : Byte)
  deriving DecidableEq, Repr

/-- Why the model stops. -/
inductive Fault where
  /-- A command would touch a cell of VFB at index VFB_BYTES or above, which R40 says does not exist. Raised by
  `touching` (Machine/Ops.lean) for OR_PLACE, CLEAR and FLUSH. No command that passes its checks and has its whole
  payload reaches it (R97). Safe: the model stops. -/
  | vfbIndex
  deriving DecidableEq, Repr

/-- Why the model gives no meaning. -/
inductive Refusal where
  /-- An instruction with no meaning yet, named as the opcode table names it. Raised by no arm of `exec`: every
  command has its meaning. Safe: the model stops. -/
  | notModelled (mnemonic : String)
  deriving DecidableEq, Repr

/-- The state of the block. -/
structure State where
  /-- VFB, the written cells of the virtual framebuffer (R21). -/
  vfb : Memory
  /-- FAULT, the one flag (R24). -/
  fault : Bool
  /-- CAUSE, the 8-bit status output (R25); 0x00 while FAULT is 0. -/
  cause : Byte
  /-- The operand latches: the bytes received so far of the command being received, in arrival order (R22). -/
  latched : List Byte
  /-- The stream position: how many stream bytes were consumed since reset (R23). -/
  position : Nat
  /-- The sink operations emitted since reset, oldest first (R26). -/
  emitted : List SinkOp
  /-- The command port: bytes the host has delivered and the block has not consumed (R60). -/
  port : List Byte
  /-- The host asserts reset (R210). -/
  resetPending : Bool
  /-- The model's own field: how many resets were taken; it numbers the draw of the unspecified contents of VFB
  (R29). -/
  resets : Nat
  deriving DecidableEq, Repr

/-- The block right after reset (R29, R210): FAULT 0, CAUSE 0, nothing latched, position 0, nothing emitted, nothing on
the port (bytes delivered before or during reset are lost), and no cell of VFB written, so that every cell reads as the
free value. `resetPending` and `resets`: DESIGN CHOICE, log 2 and log 4. -/
def State.reset : State where
  vfb := []
  fault := false
  cause := 0x00#8
  latched := []
  position := 0
  emitted := []
  port := []
  resetPending := false
  resets := 0

end Sys2Proof.Machine
end

