-- ==== Sys2Proof/Machine/Flags.lean ====
section
/-! DEFINITION. The one flag and the one status code of the block: FAULT and CAUSE (R24, R25, R181). No command writes a
flag on normal completion. -/

namespace Sys2Proof.Machine

/-- The code CAUSE holds after a fault (R181). -/
def causeCode : Cause → Byte
  | .illegalOpcode => 0x01#8
  | .xRange => 0x02#8
  | .yRange => 0x03#8
  | .countRange => 0x04#8
  | .widthRange => 0x05#8
  | .sizeRange => 0x06#8
  | .extentRange => 0x07#8

/-- `FAULT <- 1; CAUSE <- code`, in one transition (R25, R183). -/
def setFault (c : Cause) (s : State) : State := { s with fault := true, cause := causeCode c }

/-- The two status outputs agree (R25): CAUSE is 0x00 while FAULT is 0, and one of the seven codes of R181 while FAULT
is 1. -/
def statusLegal (s : State) : Bool :=
  if s.fault then decide (1 ≤ s.cause.toNat) && decide (s.cause.toNat ≤ 7) else decide (s.cause = 0x00#8)

end Sys2Proof.Machine
end

