-- ==== Sys2Proof/Machine/Ops.lean ====
section
/-! DEFINITION. The named operations over the state: the framebuffer's cells, the sink, the command port and its latches,
TAKING A FAULT (R183) and the only way back, reset (R185, R210), and the frame every command runs in. -/

namespace Sys2Proof.Machine

/-- What one step or one command answers. -/
abbrev Result := Host.Outcome State Fault Refusal

/-! The virtual framebuffer (R21, R40, R48(c)). -/

/-- The byte of cell `a`: the latest write, or the byte its reset drew if nothing was written since (R48(c), R29). -/
def State.cell (s : State) (a : Nat) : Byte :=
  (s.vfb.find? a).getD (Config.vfbAtReset s.resets a)

/-- `VFB[a] <- v` (R11). -/
def State.setCell (s : State) (a : Nat) (v : Byte) : State := { s with vfb := s.vfb.write a v }

/-- `VFB[a] |<- v`: read, OR, write back (R11, R45). -/
def State.orCell (s : State) (a : Nat) (v : Byte) : State := s.setCell a (s.cell a ||| v)

/-- Zero the cells 0 .. size-1 in rising order (R130). -/
def State.zeroCells (s : State) : Nat → State
  | 0 => s
  | k + 1 => (s.zeroCells k).setCell k 0x00#8

/-- The index of the cell of column `x` and page `p` under buffer width `w` (R21, R46). -/
def cellIndex (w x p : Nat) : Nat := (p - 1) * w + (x - 1)

/-- A command that touches only cells below `bound`: every such cell exists if `bound <= VFB_BYTES` (R40); an access
beyond is one the spec says does not exist. -/
def touching (bound : Nat) (answer : Result) : Result :=
  if bound ≤ Config.vfbBytes then answer else .fault .vfbIndex

/-! The sink (R26, R48(d), R51). -/

/-- Emit sink operations, in order, after all that was emitted before. -/
def State.emit (s : State) (ops : List SinkOp) : State := { s with emitted := s.emitted ++ ops }

/-! The command port, the latches and the stream position (R22, R23, R60, R73). -/

/-- All the bytes of the command being received: those latched, then those on the port. -/
def State.commandBytes (s : State) : List Byte := s.latched ++ s.port

/-- The bytes up to `rest` are consumed and the latches are empty again: the block is at a command boundary (R22,
R23). -/
def State.consume (s : State) (rest : List Byte) : State :=
  { s with latched := [], port := rest, position := s.position + (s.port.length - rest.length) }

/-- The command is incomplete: every byte there is goes into the latches and the block waits (R73). -/
def State.latchPort (s : State) : State :=
  { s with latched := s.commandBytes, port := [], position := s.position + s.port.length }

/-- Halted: the bytes on the port are consumed and discarded without being decoded (R184). -/
def State.discardPort (s : State) : State :=
  { s with port := [], position := s.position + s.port.length }

/-- The host delivers bytes on the command port, in order (R60). -/
def State.deliver (s : State) (bytes : List Byte) : State := { s with port := s.port ++ bytes }

/-! Taking a fault, and reset. -/

/-- TAKING A FAULT (R183): FAULT is set and CAUSE is written; the command has no effect, nothing else is saved, and
control goes nowhere: the block is halted from here on. -/
def takeFault (c : Cause) (s : State) : State := setFault c s

/-- The host asserts reset (R210). -/
def State.requestReset (s : State) : State := { s with resetPending := true }

/-- THE ONLY RETURN from a fault is reset (R185, R210): the state of `State.reset`, with a fresh draw of the contents of
VFB (R29). It emits nothing; the bytes on the port are lost. -/
def State.afterReset (s : State) : State := { State.reset with resets := s.resets + 1 }

/-- The frame every command runs in: while FAULT is 1 no command runs (R24, R184); then the operand checks, of which
the first that fails raises its fault with no other effect (R182, R183); then the command's own effect. -/
def runCommand (checks : List Check) (s : State) (effect : State → Result) : Result :=
  if s.fault then .next s
  else
    match firstFailure checks with
    | some c => .next (takeFault c s)
    | none => effect s

end Sys2Proof.Machine
end

