-- ==== Sys2Proof/Machine/Splitter.lean ====
section
/-! DEFINITION. The coordinate map and the splitter and shifter (R90 to R98): pure functions every placement is built
from. -/

namespace Sys2Proof.Machine

/-- `trunc8(v) = v mod 256` (R10): keep bits 7..0. -/
def trunc8 (v : Nat) : Byte := BitVec.ofNat 8 v

/-- `PageMap(y)`: the 1-based page of pixel row `y` and the bit offset within it (R90), defined for every natural. -/
def pageMap (y : Nat) : Nat × Nat :=
  if y % 8 = 0 then (y / 8, 7) else (y / 8 + 1, y % 8 - 1)

/-- The 1-based page that pixel row `y` lies in (R90). -/
def pageOf (y : Nat) : Nat := (pageMap y).1

/-- The row of `y` within its page, 0 being the page's top row (R90). -/
def offsetOf (y : Nat) : Nat := (pageMap y).2

/-- `PrimaryByte(offset, c)` (R98): the column shifted down by `offset` rows, cut to the page. -/
def primaryByte (offset : Nat) (c : Byte) : Byte :=
  if offset = 0 then c else trunc8 (c.toNat <<< offset)

/-- `SpillByte(offset, c)` (R98): the bits that pass the bottom of the primary page; used only when `offset` is not 0. -/
def spillByte (offset : Nat) (c : Byte) : Byte := trunc8 (c.toNat >>> (8 - offset))

/-- `HasSpill(page, offset)` (R98): there is a spill contribution and its page is on the display; a spill page beyond the
last page is clipped (R93). -/
def hasSpill (page offset : Nat) : Bool := decide (offset ≠ 0) && decide (page + 1 ≤ Config.pages)

/-- `Split(y, col)`: the (page, byte) contributions in the order they are written, primary page first (R93). -/
def split (y : Nat) (col : Byte) : List (Nat × Byte) :=
  if hasSpill (pageOf y) (offsetOf y) then
    [(pageOf y, primaryByte (offsetOf y) col), (pageOf y + 1, spillByte (offsetOf y) col)]
  else [(pageOf y, primaryByte (offsetOf y) col)]

end Sys2Proof.Machine
end

