-- ==== Sys2Proof/Machine/Placement.lean ====
section
/-! DEFINITION. Direct placement on the display: PLACE_COLUMN (R110) and PLACE_IMAGE (R111). Neither touches VFB. -/

namespace Sys2Proof.Machine

/-- The sink operations of a column placed at display column `x`, row `y` (R110): one WritePixelAt per contribution. -/
def columnOps (x y : Nat) (col : Byte) : List SinkOp :=
  (split y col).map fun (page, b) => .writePixelAt x page b

/-- One write run: the cursor is set, then the bytes are streamed (R49, R111). -/
def streamRun (x page : Nat) (bytes : List Byte) : List SinkOp :=
  .setCursor x page :: bytes.map .writeData

/-- The sink operations of an image placed at display column `x`, row `y` (R111): the primary page is streamed whole,
then the spill page if there is one. -/
def imageOps (x y : Nat) (c : List Byte) : List SinkOp :=
  streamRun x (pageOf y) (c.map (primaryByte (offsetOf y))) ++
    if hasSpill (pageOf y) (offsetOf y) then streamRun x (pageOf y + 1) (c.map (spillByte (offsetOf y))) else []

/-- PLACE_COLUMN x, y, col (R110). -/
def execPlaceColumn (x y col : Byte) (s : State) : Result :=
  runCommand (placeColumnChecks x y) s fun s => .next (s.emit (columnOps x.toNat y.toNat col))

/-- PLACE_IMAGE x, y, n, [c] (R111). -/
def execPlaceImage (x y n : Byte) (c : List Byte) (s : State) : Result :=
  runCommand (placeImageChecks x y n) s fun s => .next (s.emit (imageOps x.toNat y.toNat c))

end Sys2Proof.Machine
end

