-- ==== Sys2Proof/Machine/Framebuffer.lean ====
section
/-! DEFINITION. The virtual framebuffer's commands: CLEAR (R130), OR_PLACE (R131), FLUSH (R132). -/

namespace Sys2Proof.Machine

/-- One pass of OR_PLACE's loop (R131): the column is ORed into its primary cell `a` and, where there is a spill, into
the cell `w` places further on. -/
def orColumn (w offset : Nat) (spill : Bool) (a : Nat) (c : Byte) (s : State) : State :=
  if spill then (s.orCell a (primaryByte offset c)).orCell (a + w) (spillByte offset c)
  else s.orCell a (primaryByte offset c)

/-- The loop of OR_PLACE (R131) from index `a` on, under width `w`. -/
def orColumns (w offset : Nat) (spill : Bool) : Nat → List Byte → State → State
  | _, [], s => s
  | a, c :: cs, s => orColumns w offset spill (a + 1) cs (orColumn w offset spill a c s)

/-- The index of the cell of `(x, page)`, where the first column of OR_PLACE goes (R131). -/
def orPlaceBase (w x y : Nat) : Nat := cellIndex w x (pageOf y)

/-- One past the last cell OR_PLACE touches (R131): the last column's spill cell, or its primary cell. -/
def orPlaceBound (w x y : Nat) (c : List Byte) : Nat :=
  (if hasSpill (pageOf y) (offsetOf y) then orPlaceBase w x y + w else orPlaceBase w x y) + c.length

/-- The bytes of the cells `a .. a+count-1`, in rising order. -/
def State.cells (s : State) (a count : Nat) : List Byte := (List.range count).map fun i => s.cell (a + i)

/-- CLEAR size (R130): no sink operation. -/
def execClear (size : Byte) (s : State) : Result :=
  runCommand (clearChecks size) s fun s => touching size.toNat (.next (s.zeroCells size.toNat))

/-- OR_PLACE W, n, x, y, [c] (R131): no sink operation. -/
def execOrPlace (w n x y : Byte) (c : List Byte) (s : State) : Result :=
  runCommand (orPlaceChecks w n x y) s fun s =>
    touching (orPlaceBound w.toNat x.toNat y.toNat c)
      (.next (orColumns w.toNat (offsetOf y.toNat) (hasSpill (pageOf y.toNat) (offsetOf y.toNat))
        (orPlaceBase w.toNat x.toNat y.toNat) c s))

/-- FLUSH W, x (R132): the two pages of the buffer, each as one run; VFB is not changed. -/
def execFlush (w x : Byte) (s : State) : Result :=
  runCommand (flushChecks w x) s fun s =>
    touching (2 * w.toNat)
      (.next (s.emit (streamRun x.toNat 1 (s.cells 0 w.toNat) ++ streamRun x.toNat 2 (s.cells w.toNat w.toNat))))

end Sys2Proof.Machine
end

