-- ==== Sys2Proof/Machine/Dispatch.lean ====
section
/-! DEFINITION. The meaning of every command, one arm per constructor (R69). -/

namespace Sys2Proof.Machine

def exec (i : Instr) (s : State) : Host.Outcome State Fault Refusal :=
  match i with
  | .placeColumn x y col => Sys2Proof.Machine.execPlaceColumn x y col s
  | .placeImage x y n c => Sys2Proof.Machine.execPlaceImage x y n c s
  | .clear size => Sys2Proof.Machine.execClear size s
  | .orPlace w n x y c => Sys2Proof.Machine.execOrPlace w n x y c s
  | .flush w x => Sys2Proof.Machine.execFlush w x s

end Sys2Proof.Machine
end

