-- ==== Sys2Proof/Machine/Step.lean ====
section
/-! DEFINITION. One step of the block: one command of the stream, or a wait, or a discard, or a reset. -/

namespace Sys2Proof.Machine

/-- One step. Reset overrides everything (R186, R210). A halted block discards what arrives (R184). Otherwise the block
takes the next command from the latches and the port (R20, R74) and runs it to completion (R12); a reserved opcode faults
at once (R70); a header with an operand out of range is handed to its own meaning, which makes the same checks in the
same order and takes the fault (R182, R183); an incomplete command waits (R73). -/
def step (s : State) : Host.Outcome State Fault Refusal :=
  if s.resetPending then .next s.afterReset
  else if s.fault then .next s.discardPort
  else
    match decode s.commandBytes with
    | .command i rest => exec i (s.consume rest)
    | .rejected _ (some i) rest => exec i (s.consume rest)
    | .rejected c none rest => .next (takeFault c (s.consume rest))
    | .incomplete => .next s.latchPort

/-- The state with a table word's bytes on the command port and the block at a command boundary, so that the next step
takes exactly that command. It stands for the host's delivery of the command (log 3, log 21). -/
def State.withFetchWord (s : State) (nbits w : Nat) : State :=
  { s with latched := [], port := tableBytes nbits w }

end Sys2Proof.Machine
end

