-- ==== Sys2Proof/Machine/Display.lean ====
section
/-! DEFINITION. The reference display (R54): what the sink's cells and cursor become under a sequence of sink operations.
It is no part of the block and no part of State; it gives the emitted sequence a picture. Log 15. -/

namespace Sys2Proof.Machine

/-- The reference display (R54): its written cells, numbered (page-1)*WIDTH + (column-1), and its cursor, unset when the
source does not say where it stands. -/
structure Display where
  cells : Memory
  cursor : Option (Nat × Nat)
  deriving DecidableEq, Repr

/-- A display no operation has reached: no cell written, cursor unset. -/
def blankDisplay : Display where
  cells := []
  cursor := none

/-- The column and page name a cell of the display (R40(2), R47). -/
def onDisplay (col page : Nat) : Bool := within 1 col Config.width && within 1 page Config.pages

/-- The byte at (col, page): the last one written, or the free value of an untouched cell. -/
def Display.cellAt (d : Display) (col page : Nat) : Byte :=
  (d.cells.find? (cellIndex Config.width col page)).getD (Config.displayBefore (cellIndex Config.width col page))

/-- The byte replaces the cell; it is not ORed (R54, G1). -/
def Display.put (d : Display) (col page : Nat) (b : Byte) : Display :=
  { d with cells := d.cells.write (cellIndex Config.width col page) b }

/-- After a data write the cursor is one column further on in the same page, and unset past the last column (R53, R54). -/
def cursorAdvance (col page : Nat) : Option (Nat × Nat) :=
  if col < Config.width then some (col + 1, page) else none

/-- One operation on the reference display (R52 to R54). None where R54 gives no meaning: an operation off the display, or
a WriteData with no cursor set (U10). -/
def Display.apply (d : Display) : SinkOp → Option Display
  | .setCursor col page => if onDisplay col page then some { d with cursor := some (col, page) } else none
  | .writeData b =>
    match d.cursor with
    | some (col, page) =>
      if onDisplay col page then some { d.put col page b with cursor := cursorAdvance col page } else none
    | none => none
  | .writePixelAt col page b => if onDisplay col page then some { d.put col page b with cursor := none } else none

/-- A sequence of operations, oldest first. -/
def Display.run (d : Display) : List SinkOp → Option Display
  | [] => some d
  | op :: ops =>
    match d.apply op with
    | some d' => d'.run ops
    | none => none

/-- The sequence has a meaning on a display whose cursor is unset: every WriteData follows a SetCursor with no
WritePixelAt between, and no operation names a cell off the display (R27, R47, R49). -/
def drawable (ops : List SinkOp) : Bool := (blankDisplay.run ops).isSome

end Sys2Proof.Machine
end

