-- ==== Sys2Proof/Machine/Latches.lean ====
section
/-! DEFINITION. The operand latches by name (R22): a view of the bytes received so far of the command being received,
placed by the command's format (R62 to R66). -/

namespace Sys2Proof.Machine

/-- The names of the one-byte latches (R22). -/
inductive Latch where
  | op | x | y | w | n | size | col
  deriving DecidableEq, Repr

/-- Format C (R62). -/
def latchPlaceC : Latch → Option Nat
  | .op => some 0 | .x => some 1 | .y => some 2 | .col => some 3
  | .w => none | .n => none | .size => none

/-- Format I (R63). -/
def latchPlaceI : Latch → Option Nat
  | .op => some 0 | .x => some 1 | .y => some 2 | .n => some 3
  | .w => none | .size => none | .col => none

/-- Format S (R64). -/
def latchPlaceS : Latch → Option Nat
  | .op => some 0 | .size => some 1
  | .x => none | .y => none | .w => none | .n => none | .col => none

/-- Format B (R65). -/
def latchPlaceB : Latch → Option Nat
  | .op => some 0 | .w => some 1 | .n => some 2 | .x => some 3 | .y => some 4
  | .size => none | .col => none

/-- Format F (R66). -/
def latchPlaceF : Latch → Option Nat
  | .op => some 0 | .w => some 1 | .x => some 2
  | .y => none | .n => none | .size => none | .col => none

/-- The byte of a command with opcode byte `op` that loads a latch, if its format loads that latch (R22). -/
def latchPlace (op : Byte) (l : Latch) : Option Nat :=
  if op = 0x01#8 then latchPlaceC l
  else if op = 0x02#8 then latchPlaceI l
  else if op = 0x03#8 then latchPlaceS l
  else if op = 0x04#8 then latchPlaceB l
  else if op = 0x05#8 then latchPlaceF l
  else none

/-- What a latch holds: nothing before its byte has arrived, and nothing once the command has completed (R22, R29). -/
def State.latch (s : State) (l : Latch) : Option Byte :=
  match s.latched with
  | [] => none
  | op :: _ => (latchPlace op l).bind fun k => s.latched[k]?

/-- The payload columns `c[0] ..` latched so far (R22): the bytes after the header of formats I and B. -/
def State.latchedColumns (s : State) : List Byte :=
  match s.latched with
  | [] => []
  | op :: _ => if op = 0x02#8 then s.latched.drop 4 else if op = 0x04#8 then s.latched.drop 5 else []

end Sys2Proof.Machine
end

