-- ==== Sys2Proof/Machine/Macros.lean ====
section
/-! DEFINITION. The pseudo-instructions (R76): caller logic that expands into commands before they are sent. The block has
no reel command and keeps no reel state (R160 to R168). Log 16. -/

namespace Sys2Proof.Machine

/-- Commands one after another, each wholly before the next (R48(a)); stops at the first that stops. -/
def execAll : List Instr → State → Result
  | [], s => .next s
  | i :: is, s =>
    match exec i s with
    | .next s' => execAll is s'
    | .fault r => .fault r
    | .refused r => .refused r

/-- `OR_COLUMN W, x, y, col` (R76). -/
def orColumnMacro (w x y col : Byte) : Instr := .orPlace w 0x01#8 x y [col]

/-- `DRAW_CYCLE W, xd, body` (R76, R221): clear both pages, compose, flush. -/
def drawCycle (w xd : Byte) (body : List Instr) : List Instr :=
  .clear (BitVec.ofNat 8 (2 * w.toNat)) :: (body ++ [.flush w xd])

/-- A reel of the caller (R160): its images, all of the same number of columns. -/
structure Reel where
  /-- The columns of each image. -/
  columns : Nat
  /-- `table[0 .. N-1]`. -/
  table : List (List Byte)
  deriving DecidableEq, Repr

/-- N, the image count (R160). -/
def Reel.count (r : Reel) : Nat := r.table.length

/-- `P = N*(H+1)`, the period of the strip (R160). -/
def reelPeriod (n : Nat) : Nat := n * (Config.reelHeight + 1)

/-- `img(j)`: `table[j]`, and `table[0]` for an index outside the table (R164). -/
def Reel.image (r : Reel) (j : Nat) : List Byte := r.table.getD j (r.table.getD 0 [])

/-- `center_img_index` (R161). -/
def reelIndex (pos : Nat) : Nat := pos / (Config.reelHeight + 1)

/-- `center_img_y` (R161). -/
def reelTop (pos : Nat) : Nat := reelIndex pos * (Config.reelHeight + 1) + 1

/-- `y`, the buffer row of the center image's top row (R161); the sum is formed before the subtraction (R162). -/
def reelRow (pos : Nat) : Nat := Config.reelHeight + reelTop pos - pos

/-- The image before image `j` on the circular strip (R163). -/
def reelPrevious (n j : Nat) : Nat := if j = 0 then n - 1 else j - 1

/-- The image after image `j` on the circular strip (R163). -/
def reelNext (n j : Nat) : Nat := if j = n - 1 then 0 else j + 1

/-- One OR_PLACE of an image of the reel at row `y`. -/
def Reel.place (r : Reel) (w x : Byte) (y : Nat) (image : List Byte) : Instr :=
  .orPlace w (BitVec.ofNat 8 r.columns) x (BitVec.ofNat 8 y) image

/-- The caller's pre-shift: every source column shifted right by `s` bits (R163). -/
def preShift (s : Nat) (image : List Byte) : List Byte := image.map fun (c : Byte) => c >>> s

/-- `REEL_DRAW W, x, pos` (R163): the center image always; the tail of the previous image, pre-shifted by the caller, if
`y > 2`; the next image if it starts on the buffer. -/
def Reel.draw (r : Reel) (w x : Byte) (pos : Nat) : List Instr :=
  [r.place w x (reelRow pos) (r.image (reelIndex pos))] ++
  (if reelRow pos > 2 then
    [r.place w x 1
      (preShift (Config.reelHeight + 2 - reelRow pos) (r.image (reelPrevious r.count (reelIndex pos))))]
  else []) ++
  (if reelRow pos + Config.reelHeight + 1 ≤ Config.height then
    [r.place w x (reelRow pos + Config.reelHeight + 1) (r.image (reelNext r.count (reelIndex pos)))]
  else [])

/-- `ROLL_STEP pos` (R166): add 1, and if the result equals P make it 0. -/
def rollStep (n pos : Nat) : Nat := if pos + 1 = reelPeriod n then 0 else pos + 1

/-! Assembler syntax (R75): the mnemonic, the fixed operands in decimal, the payload in brackets. -/

/-- The bytes of a payload, in decimal, separated by spaces. -/
def asmPayload : List Byte → String
  | [] => ""
  | [b] => toString b.toNat
  | b :: bs => toString b.toNat ++ " " ++ asmPayload bs

/-- A command written as R75 writes it. -/
def asm : Instr → String
  | .placeColumn x y col =>
    "PLACE_COLUMN " ++ toString x.toNat ++ ", " ++ toString y.toNat ++ ", " ++ toString col.toNat
  | .placeImage x y n c =>
    "PLACE_IMAGE " ++ toString x.toNat ++ ", " ++ toString y.toNat ++ ", " ++ toString n.toNat ++
      ", [" ++ asmPayload c ++ "]"
  | .clear size => "CLEAR " ++ toString size.toNat
  | .orPlace w n x y c =>
    "OR_PLACE " ++ toString w.toNat ++ ", " ++ toString n.toNat ++ ", " ++ toString x.toNat ++ ", " ++
      toString y.toNat ++ ", [" ++ asmPayload c ++ "]"
  | .flush w x => "FLUSH " ++ toString w.toNat ++ ", " ++ toString x.toNat

end Sys2Proof.Machine
end

