-- ==== Sys2Proof/Safety.lean ====
section
/-! DEFINITION. What counts as a good state and a safe run of the block, in the terms the statements use. -/

namespace Sys2Proof.Machine

/-- The next step takes bytes of the command stream for a command: no reset is asserted and the block is not halted. -/
def ready (s : State) : Bool := !s.resetPending && !s.fault

/-- Ready, and at a command boundary: nothing is latched. -/
def atBoundary (s : State) : Bool := ready s && decide (s.latched = [])

/-- The latches hold part of one command and no whole one (R22, R73); nothing once halted; and the bytes they hold were
counted as consumed (R23). -/
def latchesLegal (s : State) : Bool :=
  decide (decode s.latched = .incomplete) && (!s.fault || decide (s.latched = [])) &&
    decide (s.latched.length ≤ s.position)

/-- The invariant of the block: the framebuffer's list is canonical and inside VFB, FAULT and CAUSE agree, the latches
hold no more than part of a command, and the emitted sequence has a meaning on the display. -/
def legal (s : State) : Bool :=
  s.vfb.wf && statusLegal s && latchesLegal s && drawable s.emitted

/-- "A run that ends with FAULT = 1 has not ended well" (R184). -/
def faulted (s : State) : Bool := s.fault

/-- "A run that ends with the block in this state has not finished" (R73): part of a command is latched. -/
def waiting (s : State) : Bool := !s.fault && decide (s.latched ≠ [])

/-- A run has finished well: not halted, at a command boundary, every delivered byte consumed. -/
def finished (s : State) : Bool := !s.fault && decide (s.latched = []) && decide (s.port = [])

/-- `k` steps end in a state, and that state is not a faulted one. -/
def safeRun (k : Nat) (s : State) : Bool :=
  match Host.Core.run Sys2Proof.core k s with
  | .next t => !State.fault t
  | .fault _ => false
  | .refused _ => false

/-- A run of the block against a host that delivers a chunk of bytes before each step (R20, R60): one step per
chunk, stopping at the first stop. -/
def runDelivering : List (List Byte) → State → Result
  | [], s => .next s
  | chunk :: chunks, s =>
    match step (s.deliver chunk) with
    | .next t => runDelivering chunks t
    | .fault r => .fault r
    | .refused r => .refused r

/-- The byte an OR_PLACE command alone leaves in cell `a`, after the CLEAR of a draw cycle of width `w` (R134). -/
def drawnAlone (s : State) (w : Byte) (a : Nat) (i : Instr) : Byte :=
  match execAll [.clear (BitVec.ofNat 8 (2 * w.toNat)), i] s with
  | .next t => t.cell a
  | .fault _ => 0x00#8
  | .refused _ => 0x00#8

/-- An OR_PLACE command of buffer width `w` (R134, R222). -/
def orPlaceOfWidth (w : Byte) : Instr → Bool
  | .orPlace w' _ _ _ _ => decide (w' = w)
  | .placeColumn _ _ _ => false
  | .placeImage _ _ _ _ => false
  | .clear _ => false
  | .flush _ _ => false

/-- Pixel row `r` of column `col` of the buffer of width `w` (R135): bit `(r-1) mod 8` of the cell at
`((r-1) div 8)*w + (col-1)`. -/
def State.pix (s : State) (w col r : Nat) : Bool :=
  (s.cell ((r - 1) / 8 * w + (col - 1))).getLsbD ((r - 1) % 8)

end Sys2Proof.Machine
end

