-- ==== Sys2Proof/Certificates/Slice0/Obligations.lean ====
section
/-! DEFINITION. The statements about the block, taken from the numbered rules of the spec. Each docstring names the rule. A
byte operand is read as the natural number `toNat` (R68). -/

open Sys2Proof Sys2Proof.Machine

/-! ## Decoding and encoding -/

/-- R62 to R66: one word of each format, written out byte by byte, decodes to the command it stands for (the OR_PLACE word is
the example of R75). -/
def Obligations.FormatWordsDecode : Prop :=
  decode [0x01#8, 0x03#8, 0x04#8, 0xB7#8] = .command (.placeColumn 0x03#8 0x04#8 0xB7#8) [] ∧
  decode [0x02#8, 0x0A#8, 0x06#8, 0x02#8, 0xFF#8, 0x81#8] =
    .command (.placeImage 0x0A#8 0x06#8 0x02#8 [0xFF#8, 0x81#8]) [] ∧
  decode [0x03#8, 0x10#8] = .command (.clear 0x10#8) [] ∧
  decode [0x04#8, 0x08#8, 0x02#8, 0x03#8, 0x06#8, 0xFF#8, 0x81#8] =
    .command (.orPlace 0x08#8 0x02#8 0x03#8 0x06#8 [0xFF#8, 0x81#8]) [] ∧
  decode [0x05#8, 0x08#8, 0x0A#8] = .command (.flush 0x08#8 0x0A#8) []

/-- R61, R67: every well-formed command, encoded and followed by any bytes, decodes to itself and leaves those bytes. -/
def Obligations.EncodedCommandDecodesToItself : Prop :=
  ∀ (i : Instr) (rest : List Byte), wellFormed i = true → decode (encode i ++ rest) = .command i rest

/-- R74: the decoder answers exactly one of a complete command (then the bytes are its encoding and the rest), a fault
cause (then the bytes begin with a reserved opcode, or with a header whose checks raise that cause), or incomplete; and two
byte lists that decode to the same command with the same rest are the same list. Every command with in-range operands has an
encoding, and it is the only one. -/
def Obligations.DecoderAnswersExactlyOneResult : Prop :=
  (∀ bs : List Byte,
    (∃ i rest, decode bs = .command i rest ∧ wellFormed i = true ∧ bs = encode i ++ rest) ∨
    (∃ op rest, decode bs = .rejected .illegalOpcode none rest ∧ bs = op :: rest ∧ (op.toNat = 0 ∨ 6 ≤ op.toNat)) ∨
    (∃ i c rest, decode bs = .rejected c (some i) rest ∧ operandFault i = some c ∧ payload i = [] ∧
      bs = encode i ++ rest) ∨
    decode bs = .incomplete) ∧
  (∀ (bs bs' : List Byte) (i : Instr) (rest : List Byte),
    decode bs = .command i rest → decode bs' = .command i rest → bs = bs') ∧
  (∀ (i : Instr), wellFormed i = true → ∀ bs, decode bs = .command i [] ↔ bs = encode i)

/-- R67, R182, R183: a header with an operand out of range is rejected with the cause of its first failing check as soon as
it is complete, whatever follows; no payload byte is taken. -/
def Obligations.BadHeaderRejectedBeforePayload : Prop :=
  ∀ (i : Instr) (c : Cause) (rest : List Byte), operandFault i = some c → payload i = [] →
    decode (encode i ++ rest) = .rejected c (some i) rest

/-- R67, R73, R182: a command cut anywhere before its last byte is incomplete, and so is a header cut before its last fixed
operand, whether or not the operands already there are in range. -/
def Obligations.CommandCutShortIsIncomplete : Prop :=
  ∀ (i : Instr) (k : Nat),
    (wellFormed i = true → k < formatLength i → decode ((encode i).take k) = .incomplete) ∧
    (k < headerLength i → decode ((encode i).take k) = .incomplete)

/-- R70: a byte 0x00 or 0x06 to 0xFF where an opcode is expected takes the fault ILLEGAL_OPCODE at once and consumes no
further byte; nothing else changes (what the latches hold after a fault is log 6, and is not said here). -/
def Obligations.ReservedOpcodeFaultsAtOnce : Prop :=
  ∀ (s : State) (op : Byte) (rest : List Byte), atBoundary s = true → s.port = op :: rest →
    (op.toNat = 0 ∨ (6 ≤ op.toNat ∧ op.toNat ≤ 255)) →
    ∃ t, step s = .next t ∧ t = { s with
      latched := t.latched
      fault := true
      cause := 0x01#8
      port := rest
      position := s.position + 1 }

/-! ## The step and the command stream -/

/-- R12, R20: when the bytes latched and on the port decode to a command, the step is that command's meaning, in the state
whose latches are empty, whose port holds the rest and whose position counts the bytes consumed. -/
def Obligations.StepRunsTheDecodedCommand : Prop :=
  ∀ (s : State) (i : Instr) (rest : List Byte), ready s = true → decode (s.latched ++ s.port) = .command i rest →
    step s = exec i { s with latched := [], port := rest, position := s.position + (s.port.length - rest.length) }

/-- R23, R67: from a command boundary, the bytes of a well-formed command run that command and advance the stream position
by its format's length. -/
def Obligations.StepOnACommandsBytesAdvancesByItsLength : Prop :=
  ∀ (s : State) (i : Instr) (rest : List Byte), atBoundary s = true → wellFormed i = true →
    s.port = encode i ++ rest →
    step s = exec i { s with port := rest, position := s.position + formatLength i }

/-- R73: with a command incomplete the block takes every byte there is and waits: no effect, no timeout, no fault; with no
further byte every later step leaves the state as it is; and such a run has not finished. That the wait is a step of its own
which latches every byte there is, and counts it as consumed, is the model's reading (log 5, log 6). -/
def Obligations.IncompleteCommandWaits : Prop :=
  ∀ s : State, ready s = true → decode (s.latched ++ s.port) = .incomplete →
    ∃ t, t = { s with latched := s.latched ++ s.port, port := [], position := s.position + s.port.length } ∧
      step s = .next t ∧ step t = .next t ∧ (s.latched ++ s.port ≠ [] → finished t = false)

/-- R60, R73: how the bytes of a command are handed over does not matter: delivered in two pieces, with the block waiting
between them, they give the same answer as delivered at once. -/
def Obligations.DeliveryInPiecesGivesTheSameAnswer : Prop :=
  ∀ (s t : State) (bytes : List Byte), ready s = true → decode (s.latched ++ s.port) = .incomplete →
    step s = .next t → step (t.deliver bytes) = step (s.deliver bytes)

/-- R23, R60: from every state that meets the invariant, a step that is not a reset consumes bytes from the front of the port
only, and the stream position counts exactly the bytes consumed. That bytes latched by a wait and bytes discarded while halted
count as consumed is the model's reading (log 5, log 7). -/
def Obligations.EveryByteIsConsumedOnceInOrder : Prop :=
  ∀ s t : State, legal s = true → s.resetPending = false → step s = .next t →
    ∃ taken, s.port = taken ++ t.port ∧ t.position = s.position + taken.length

/-- R22, R62 to R66: in every state each named latch is the byte at the place its format gives it, counted from the opcode
byte at 0, or holds nothing where that byte has not arrived; a latch the format does not load holds nothing; the payload columns
are the bytes after the fourth in format I and after the fifth in format B, and none in the others; with no byte latched nothing
is held. After a step the latches hold exactly the bytes received of a command that is incomplete, whose opcode is then one of
the five and whose columns are at most WIDTH, and nothing once a command has completed or faulted (that the latches are one list
of bytes, and that a fault empties them too, is the model's choice, log 6; that a wait latches every byte there is, log 5). -/
def Obligations.LatchesHoldOnlyTheCommandInProgress : Prop :=
  (∀ u : State,
    (u.latched[0]? = some 0x01#8 → u.latch .op = u.latched[0]? ∧ u.latch .x = u.latched[1]? ∧ u.latch .y = u.latched[2]? ∧
      u.latch .col = u.latched[3]? ∧ u.latch .w = none ∧ u.latch .n = none ∧ u.latch .size = none ∧ u.latchedColumns = []) ∧
    (u.latched[0]? = some 0x02#8 → u.latch .op = u.latched[0]? ∧ u.latch .x = u.latched[1]? ∧ u.latch .y = u.latched[2]? ∧
      u.latch .n = u.latched[3]? ∧ u.latch .w = none ∧ u.latch .size = none ∧ u.latch .col = none ∧
      u.latchedColumns = u.latched.drop 4) ∧
    (u.latched[0]? = some 0x03#8 → u.latch .op = u.latched[0]? ∧ u.latch .size = u.latched[1]? ∧ u.latch .x = none ∧
      u.latch .y = none ∧ u.latch .w = none ∧ u.latch .n = none ∧ u.latch .col = none ∧ u.latchedColumns = []) ∧
    (u.latched[0]? = some 0x04#8 → u.latch .op = u.latched[0]? ∧ u.latch .w = u.latched[1]? ∧ u.latch .n = u.latched[2]? ∧
      u.latch .x = u.latched[3]? ∧ u.latch .y = u.latched[4]? ∧ u.latch .size = none ∧ u.latch .col = none ∧
      u.latchedColumns = u.latched.drop 5) ∧
    (u.latched[0]? = some 0x05#8 → u.latch .op = u.latched[0]? ∧ u.latch .w = u.latched[1]? ∧ u.latch .x = u.latched[2]? ∧
      u.latch .y = none ∧ u.latch .n = none ∧ u.latch .size = none ∧ u.latch .col = none ∧ u.latchedColumns = []) ∧
    (u.latched = [] → (∀ l : Latch, u.latch l = none) ∧ u.latchedColumns = [])) ∧
  (∀ s t : State, ready s = true → step s = .next t →
    (decode (s.latched ++ s.port) = .incomplete → t.latched = s.latched ++ s.port ∧ t.latchedColumns.length ≤ 50 ∧
      ∀ op : Byte, t.latched[0]? = some op → 1 ≤ op.toNat ∧ op.toNat ≤ 5) ∧
    (decode (s.latched ++ s.port) ≠ .incomplete → (∀ l : Latch, t.latch l = none) ∧ t.latchedColumns = []))

/-! ## The coordinate map and the splitter -/

/-- R91: for every `y >= 1` the page and the offset are the quotient and the remainder of `y-1` by 8. -/
def Obligations.PageMapIsRowArithmetic : Prop :=
  ∀ y : Nat, 1 ≤ y → pageMap y = ((y - 1) / 8 + 1, (y - 1) % 8) ∧ y = ((pageMap y).1 - 1) * 8 + (pageMap y).2 + 1

/-- R95: no bit is lost when the spill page exists, the low bits of the primary byte and the high bits of the spill byte are
0, an offset of 0 gives the column itself, and where the spill page is clipped its byte is the part that is lost. -/
def Obligations.ShiftedColumnLosesNoBit : Prop :=
  ∀ col : Byte,
    (∀ offset : Nat, 1 ≤ offset → offset ≤ 7 →
      (primaryByte offset col).toNat + 256 * (spillByte offset col).toNat = col.toNat * 2 ^ offset ∧
      (primaryByte offset col).toNat % 2 ^ offset = 0 ∧ (spillByte offset col).toNat < 2 ^ offset) ∧
    (∀ y : Nat, y = 1 ∨ y = 9 → split y col = [((y - 1) / 8 + 1, col)]) ∧
    (∀ y : Nat, 2 ≤ y → y ≤ 8 → split y col = [(1, primaryByte (y - 1) col), (2, spillByte (y - 1) col)]) ∧
    (∀ y : Nat, 10 ≤ y → y ≤ 16 → split y col = [(2, primaryByte (y - 9) col)])

/-- R96: sprite row `k` of a column placed at row `y` contributes to pixel row `y + k` and to nothing else, and rows beyond
HEIGHT are dropped: bit `(r-1) mod 8` of the contribution to page `(r-1) div 8 + 1` is set exactly when row `r` shows a set
bit of the column. -/
def Obligations.ContributionsPaintTheColumnsRows : Prop :=
  ∀ (y r : Nat) (col : Byte), 1 ≤ y → y ≤ 16 → 1 ≤ r → r ≤ 16 →
    ((∃ b, ((r - 1) / 8 + 1, b) ∈ split y col ∧ b.getLsbD ((r - 1) % 8) = true) ↔
      (y ≤ r ∧ r ≤ y + 7 ∧ col.getLsbD (r - y) = true))

/-! ## PLACE_COLUMN and PLACE_IMAGE -/

/-- R110 with the arithmetic of R91 and R93 written out: PLACE_COLUMN with operands in range completes, emits one or two
WritePixelAt and changes nothing else. -/
def Obligations.PlaceColumnEmitsItsContributions : Prop :=
  ∀ (x y col : Byte) (s : State), s.fault = false → 1 ≤ x.toNat → x.toNat ≤ 50 → 1 ≤ y.toNat → y.toNat ≤ 16 →
    exec (.placeColumn x y col) s = .next { s with emitted := s.emitted ++
      (if y.toNat = 1 ∨ y.toNat = 9 then [.writePixelAt x.toNat ((y.toNat - 1) / 8 + 1) col]
       else if y.toNat ≤ 8 then
         [.writePixelAt x.toNat 1 (BitVec.ofNat 8 (col.toNat * 2 ^ (y.toNat - 1))),
          .writePixelAt x.toNat 2 (BitVec.ofNat 8 (col.toNat / 2 ^ (9 - y.toNat)))]
       else [.writePixelAt x.toNat 2 (BitVec.ofNat 8 (col.toNat * 2 ^ (y.toNat - 9)))]) }

/-- R110 as a whole, from the bytes `01 x y col` at a command boundary: its checks in order, its operations, its faults, the
stream position, and nothing else. -/
def Obligations.PlaceColumnFollowsItsRule : Prop :=
  ∀ (s : State) (x y col : Byte) (rest : List Byte), atBoundary s = true →
    s.port = 0x01#8 :: x :: y :: col :: rest →
    ∃ t, step s = .next t ∧ t.port = rest ∧ t.position = s.position + 4 ∧
      t = { s with
            latched := t.latched
            port := t.port
            position := t.position
            fault := t.fault
            cause := t.cause
            emitted := t.emitted } ∧
      (if ¬ (1 ≤ x.toNat ∧ x.toNat ≤ 50) then t.fault = true ∧ t.cause = 0x02#8 ∧ t.emitted = s.emitted
       else if ¬ (1 ≤ y.toNat ∧ y.toNat ≤ 16) then t.fault = true ∧ t.cause = 0x03#8 ∧ t.emitted = s.emitted
       else t.fault = false ∧ t.cause = s.cause ∧ t.latched = [] ∧ t.emitted = s.emitted ++
         (if (y.toNat - 1) % 8 = 0 then [.writePixelAt x.toNat ((y.toNat - 1) / 8 + 1) col]
          else .writePixelAt x.toNat ((y.toNat - 1) / 8 + 1) (BitVec.ofNat 8 (col.toNat <<< ((y.toNat - 1) % 8))) ::
            (if (y.toNat - 1) / 8 + 2 ≤ 2 then
              [.writePixelAt x.toNat ((y.toNat - 1) / 8 + 2) (BitVec.ofNat 8 (col.toNat >>> (8 - (y.toNat - 1) % 8)))]
             else [])))

/-- R111 with the arithmetic of R91 and R98 written out: PLACE_IMAGE with operands in range and its whole payload completes,
sets the cursor once per page, streams every column, and changes nothing else. -/
def Obligations.PlaceImageStreamsItsPages : Prop :=
  ∀ (x y n : Byte) (c : List Byte) (s : State), s.fault = false → c.length = n.toNat →
    1 ≤ x.toNat → x.toNat ≤ 50 → 1 ≤ y.toNat → y.toNat ≤ 16 → 1 ≤ n.toNat → x.toNat + n.toNat ≤ 51 →
    exec (.placeImage x y n c) s = .next { s with emitted := s.emitted ++
      (if y.toNat = 1 ∨ y.toNat = 9 then
         .setCursor x.toNat ((y.toNat - 1) / 8 + 1) :: c.map (fun b => .writeData b)
       else if y.toNat ≤ 8 then
         (.setCursor x.toNat 1 :: c.map fun b => .writeData (BitVec.ofNat 8 (b.toNat * 2 ^ (y.toNat - 1)))) ++
         (.setCursor x.toNat 2 :: c.map fun b => .writeData (BitVec.ofNat 8 (b.toNat / 2 ^ (9 - y.toNat))))
       else .setCursor x.toNat 2 :: c.map fun b => .writeData (BitVec.ofNat 8 (b.toNat * 2 ^ (y.toNat - 9)))) }

/-- R111 as a whole, from the bytes `02 x y n` and what follows at a command boundary: its checks in order, each raised
before any payload byte is consumed; with part of the payload missing, a wait; with the payload there, its operations; the
stream position; nothing else. -/
def Obligations.PlaceImageFollowsItsRule : Prop :=
  ∀ (s : State) (x y n : Byte) (bytes : List Byte), atBoundary s = true →
    s.port = 0x02#8 :: x :: y :: n :: bytes →
    ∃ t, step s = .next t ∧
      t = { s with
            latched := t.latched
            port := t.port
            position := t.position
            fault := t.fault
            cause := t.cause
            emitted := t.emitted } ∧
      (if x.toNat < 1 ∨ 50 < x.toNat then
         t.fault = true ∧ t.cause = 0x02#8 ∧ t.emitted = s.emitted ∧ t.port = bytes ∧
           t.position = s.position + 4
       else if y.toNat < 1 ∨ 16 < y.toNat then
         t.fault = true ∧ t.cause = 0x03#8 ∧ t.emitted = s.emitted ∧ t.port = bytes ∧
           t.position = s.position + 4
       else if n.toNat < 1 then
         t.fault = true ∧ t.cause = 0x04#8 ∧ t.emitted = s.emitted ∧ t.port = bytes ∧
           t.position = s.position + 4
       else if 50 < x.toNat + n.toNat - 1 then
         t.fault = true ∧ t.cause = 0x07#8 ∧ t.emitted = s.emitted ∧ t.port = bytes ∧
           t.position = s.position + 4
       else if bytes.length < n.toNat then
         t.fault = false ∧ t.cause = s.cause ∧ t.emitted = s.emitted
       else
         t.fault = false ∧ t.cause = s.cause ∧ t.latched = [] ∧ t.port = bytes.drop n.toNat ∧
         t.position = s.position + (4 + n.toNat) ∧
         t.emitted = s.emitted ++ .setCursor x.toNat ((y.toNat - 1) / 8 + 1) ::
           ((bytes.take n.toNat).map (fun b => .writeData
             (if (y.toNat - 1) % 8 = 0 then b else BitVec.ofNat 8 (b.toNat <<< ((y.toNat - 1) % 8)))) ++
           (if (y.toNat - 1) % 8 ≠ 0 ∧ (y.toNat - 1) / 8 + 2 ≤ 2 then
             .setCursor x.toNat ((y.toNat - 1) / 8 + 2) :: (bytes.take n.toNat).map fun b =>
               .writeData (BitVec.ofNat 8 (b.toNat >>> (8 - (y.toNat - 1) % 8)))
            else [])))

/-- R40(1), R110, R111: direct placement neither reads nor writes the framebuffer: with any other contents it does the same to
everything else and leaves those contents. -/
def Obligations.DirectPlacementNeverReachesTheBuffer : Prop :=
  ∀ (i : Instr) (s t : State) (v : Memory) (k : Nat),
    ((∃ x y col, i = .placeColumn x y col) ∨ ∃ x y n c, i = .placeImage x y n c) →
    exec i s = .next t → exec i { s with vfb := v, resets := k } = .next { t with vfb := v, resets := k }

/-! ## CLEAR, OR_PLACE and FLUSH -/

/-- R130: CLEAR with a size in range (0 and 100 among them) completes; the cells below `size` become 0, every other cell
keeps its value, and nothing but the framebuffer changes. -/
def Obligations.ClearZeroesItsCells : Prop :=
  ∀ (size : Byte) (s : State), s.fault = false → size.toNat ≤ 100 →
    ∃ t, exec (.clear size) s = .next t ∧ t = { s with vfb := t.vfb } ∧
      ∀ a, t.cell a = if a < size.toNat then 0x00#8 else s.cell a

/-- R130 as a whole, from the bytes `03 size` at a command boundary. -/
def Obligations.ClearFollowsItsRule : Prop :=
  ∀ (s : State) (size : Byte) (rest : List Byte), atBoundary s = true → s.port = 0x03#8 :: size :: rest →
    ∃ t, step s = .next t ∧
      t = { s with
            latched := t.latched
            port := rest
            position := s.position + 2
            fault := t.fault
            cause := t.cause
            vfb := t.vfb } ∧
      (if 100 < size.toNat then t.fault = true ∧ t.cause = 0x06#8 ∧ t.vfb = s.vfb
       else t.fault = false ∧ t.cause = s.cause ∧ t.latched = [] ∧
         ∀ a, t.cell a = if a < size.toNat then 0x00#8 else s.cell a)

/-- R135: OR_PLACE with operands in range and its whole payload completes; pixel `(x+i, y+k)` becomes its old value OR bit `k`
of column `i`, every other pixel of the buffer of width `W` and every cell beyond it keeps its value, and nothing but the
framebuffer changes. -/
def Obligations.OrPlaceOrsItsPixels : Prop :=
  ∀ (w n x y : Byte) (c : List Byte) (s : State), s.fault = false → c.length = n.toNat →
    1 ≤ w.toNat → w.toNat ≤ 50 → 1 ≤ n.toNat → 1 ≤ x.toNat → 1 ≤ y.toNat → y.toNat ≤ 16 →
    x.toNat + n.toNat - 1 ≤ w.toNat →
    ∃ t, exec (.orPlace w n x y c) s = .next t ∧ t = { s with vfb := t.vfb } ∧
      (∀ i k, i < n.toNat → k ≤ 7 → y.toNat + k ≤ 16 →
        t.pix w.toNat (x.toNat + i) (y.toNat + k) =
          (s.pix w.toNat (x.toNat + i) (y.toNat + k) || (c.getD i 0x00#8).getLsbD k)) ∧
      (∀ col r, 1 ≤ col → col ≤ w.toNat → 1 ≤ r → r ≤ 16 →
        ¬ (x.toNat ≤ col ∧ col < x.toNat + n.toNat ∧ y.toNat ≤ r ∧ r ≤ y.toNat + 7) →
        t.pix w.toNat col r = s.pix w.toNat col r) ∧
      (∀ a, 2 * w.toNat ≤ a → t.cell a = s.cell a)

/-- R131 as a whole, from the bytes `04 W n x y` and what follows at a command boundary: its checks in order, each raised
before any payload byte is consumed; with part of the payload missing, a wait; with the payload there, the OR into the primary
and the spill cells, every other cell as before; the stream position; nothing else. -/
def Obligations.OrPlaceFollowsItsRule : Prop :=
  ∀ (s : State) (w n x y : Byte) (bytes : List Byte), atBoundary s = true →
    s.port = 0x04#8 :: w :: n :: x :: y :: bytes →
    ∃ t, step s = .next t ∧
      t = { s with
            latched := t.latched
            port := t.port
            position := t.position
            fault := t.fault
            cause := t.cause
            vfb := t.vfb } ∧
      (if w.toNat < 1 ∨ 50 < w.toNat then
         t.fault = true ∧ t.cause = 0x05#8 ∧ t.vfb = s.vfb ∧ t.port = bytes ∧
           t.position = s.position + 5
       else if n.toNat < 1 then
         t.fault = true ∧ t.cause = 0x04#8 ∧ t.vfb = s.vfb ∧ t.port = bytes ∧
           t.position = s.position + 5
       else if x.toNat < 1 ∨ w.toNat < x.toNat then
         t.fault = true ∧ t.cause = 0x02#8 ∧ t.vfb = s.vfb ∧ t.port = bytes ∧
           t.position = s.position + 5
       else if y.toNat < 1 ∨ 16 < y.toNat then
         t.fault = true ∧ t.cause = 0x03#8 ∧ t.vfb = s.vfb ∧ t.port = bytes ∧
           t.position = s.position + 5
       else if w.toNat < x.toNat + n.toNat - 1 then
         t.fault = true ∧ t.cause = 0x07#8 ∧ t.vfb = s.vfb ∧ t.port = bytes ∧
           t.position = s.position + 5
       else if bytes.length < n.toNat then
         t.fault = false ∧ t.cause = s.cause ∧ t.vfb = s.vfb
       else
         t.fault = false ∧ t.cause = s.cause ∧ t.latched = [] ∧ t.port = bytes.drop n.toNat ∧
         t.position = s.position + (5 + n.toNat) ∧
         ∀ a,
           (∀ i, i < n.toNat → a = (y.toNat - 1) / 8 * w.toNat + (x.toNat - 1) + i →
             t.cell a = s.cell a ||| BitVec.ofNat 8 ((bytes.getD i 0x00#8).toNat <<< ((y.toNat - 1) % 8))) ∧
           (∀ i, i < n.toNat → 2 ≤ y.toNat → y.toNat ≤ 8 → a = w.toNat + (x.toNat - 1) + i →
             t.cell a = s.cell a ||| BitVec.ofNat 8 ((bytes.getD i 0x00#8).toNat >>> (9 - y.toNat))) ∧
           ((∀ i, i < n.toNat → a ≠ (y.toNat - 1) / 8 * w.toNat + (x.toNat - 1) + i) →
            (∀ i, i < n.toNat → 2 ≤ y.toNat → y.toNat ≤ 8 → a ≠ w.toNat + (x.toNat - 1) + i) →
             t.cell a = s.cell a))

/-- R133: an OR_PLACE command maps any buffer to its OR with what the command produces from an all-zero buffer; hence it is
idempotent, any two commute, and none ever clears a bit; of all commands only CLEAR clears one. -/
def Obligations.OrPlaceAlgebra : Prop :=
  (∀ (w n x y : Byte) (c : List Byte) (s z : State), wellFormed (.orPlace w n x y c) = true → s.fault = false →
    z.fault = false → (∀ a, a < 100 → z.cell a = 0x00#8) →
    ∃ t u, exec (.orPlace w n x y c) s = .next t ∧ exec (.orPlace w n x y c) z = .next u ∧
      ∀ a, a < 100 → t.cell a = s.cell a ||| u.cell a) ∧
  (∀ (w n x y : Byte) (c : List Byte) (s : State), wellFormed (.orPlace w n x y c) = true → s.fault = false →
    ∃ t u, exec (.orPlace w n x y c) s = .next t ∧ exec (.orPlace w n x y c) t = .next u ∧
      ∀ a, u.cell a = t.cell a) ∧
  (∀ (i j : Instr) (w w' : Byte) (s : State), wellFormed i = true → wellFormed j = true →
    orPlaceOfWidth w i = true → orPlaceOfWidth w' j = true → s.fault = false →
    ∃ t u, execAll [i, j] s = .next t ∧ execAll [j, i] s = .next u ∧ ∀ a, t.cell a = u.cell a) ∧
  (∀ (i : Instr) (s t : State) (a k : Nat), exec i s = .next t → (s.cell a).getLsbD k = true →
    (t.cell a).getLsbD k = false → ∃ size, i = .clear size ∧ a < size.toNat)

/-- R132: FLUSH with operands in range completes: it sets the cursor to (x, 1), streams the first `W` cells, sets the cursor
to (x, 2), streams the next `W` cells, and changes nothing else; the framebuffer is kept. -/
def Obligations.FlushStreamsBothPages : Prop :=
  ∀ (w x : Byte) (s : State), s.fault = false → 1 ≤ w.toNat → w.toNat ≤ 50 → 1 ≤ x.toNat → x.toNat ≤ 50 →
    x.toNat + w.toNat - 1 ≤ 50 →
    exec (.flush w x) s = .next { s with emitted := s.emitted ++
      (.setCursor x.toNat 1 :: (List.range w.toNat).map fun i => .writeData (s.cell i)) ++
      (.setCursor x.toNat 2 :: (List.range w.toNat).map fun i => .writeData (s.cell (w.toNat + i))) }

/-- R132 as a whole, from the bytes `05 W x` at a command boundary. -/
def Obligations.FlushFollowsItsRule : Prop :=
  ∀ (s : State) (w x : Byte) (rest : List Byte), atBoundary s = true → s.port = 0x05#8 :: w :: x :: rest →
    ∃ t, step s = .next t ∧
      t = { s with
            latched := t.latched
            port := rest
            position := s.position + 3
            fault := t.fault
            cause := t.cause
            emitted := t.emitted } ∧
      (if w.toNat < 1 ∨ 50 < w.toNat then t.fault = true ∧ t.cause = 0x05#8 ∧ t.emitted = s.emitted
       else if x.toNat < 1 ∨ 50 < x.toNat then t.fault = true ∧ t.cause = 0x02#8 ∧ t.emitted = s.emitted
       else if 50 < x.toNat + w.toNat - 1 then t.fault = true ∧ t.cause = 0x07#8 ∧ t.emitted = s.emitted
       else t.fault = false ∧ t.cause = s.cause ∧ t.latched = [] ∧ ∃ first second : List SinkOp,
         t.emitted = s.emitted ++ .setCursor x.toNat 1 :: first ++ .setCursor x.toNat 2 :: second ∧
         first.length = w.toNat ∧ second.length = w.toNat ∧
         ∀ i, i < w.toNat → first[i]? = some (.writeData (s.cell i)) ∧
           second[i]? = some (.writeData (s.cell (w.toNat + i))))

/-! ## Frames and faults -/

/-- R24, R110 to R132 ("State written", "Flags"): whatever a command answers, it leaves the latches, the position, the port and
the reset inputs; FAULT and CAUSE change only where its operand checks fail; the framebuffer changes only under CLEAR and
OR_PLACE; the emitted sequence only under PLACE_COLUMN, PLACE_IMAGE and FLUSH. -/
def Obligations.CommandsLeaveEverythingElse : Prop :=
  ∀ (i : Instr) (s t : State), exec i s = .next t →
    t.latched = s.latched ∧ t.position = s.position ∧ t.port = s.port ∧ t.resetPending = s.resetPending ∧
    t.resets = s.resets ∧
    (operandFault i = none → t.fault = s.fault ∧ t.cause = s.cause) ∧
    (operandFault i ≠ none → t.vfb = s.vfb ∧ t.emitted = s.emitted) ∧
    ((∀ size, i ≠ .clear size) → (∀ w n x y c, i ≠ .orPlace w n x y c) → t.vfb = s.vfb) ∧
    ((∀ x y col, i ≠ .placeColumn x y col) → (∀ x y n c, i ≠ .placeImage x y n c) → (∀ w x, i ≠ .flush w x) →
      t.emitted = s.emitted)

/-- R182: the checks of every command, in the table's order, the first that fails deciding; the command then takes that fault
and does nothing else. -/
def Obligations.OperandChecksFollowTheTable : Prop :=
  (∀ (x y col : Byte) (s : State), s.fault = false → ¬ (1 ≤ x.toNat ∧ x.toNat ≤ 50 ∧ 1 ≤ y.toNat ∧ y.toNat ≤ 16) →
    exec (.placeColumn x y col) s = .next { s with fault := true, cause :=
      if x.toNat < 1 ∨ 50 < x.toNat then 0x02#8 else 0x03#8 }) ∧
  (∀ (x y n : Byte) (c : List Byte) (s : State), s.fault = false →
    ¬ (1 ≤ x.toNat ∧ x.toNat ≤ 50 ∧ 1 ≤ y.toNat ∧ y.toNat ≤ 16 ∧ 1 ≤ n.toNat ∧ x.toNat + n.toNat - 1 ≤ 50) →
    exec (.placeImage x y n c) s = .next { s with fault := true, cause :=
      if x.toNat < 1 ∨ 50 < x.toNat then 0x02#8 else if y.toNat < 1 ∨ 16 < y.toNat then 0x03#8
      else if n.toNat < 1 then 0x04#8 else 0x07#8 }) ∧
  (∀ (size : Byte) (s : State), s.fault = false → 100 < size.toNat →
    exec (.clear size) s = .next { s with fault := true, cause := 0x06#8 }) ∧
  (∀ (w n x y : Byte) (c : List Byte) (s : State), s.fault = false →
    ¬ (1 ≤ w.toNat ∧ w.toNat ≤ 50 ∧ 1 ≤ n.toNat ∧ 1 ≤ x.toNat ∧ x.toNat ≤ w.toNat ∧ 1 ≤ y.toNat ∧ y.toNat ≤ 16 ∧
      x.toNat + n.toNat - 1 ≤ w.toNat) →
    exec (.orPlace w n x y c) s = .next { s with fault := true, cause :=
      if w.toNat < 1 ∨ 50 < w.toNat then 0x05#8 else if n.toNat < 1 then 0x04#8
      else if x.toNat < 1 ∨ w.toNat < x.toNat then 0x02#8 else if y.toNat < 1 ∨ 16 < y.toNat then 0x03#8
      else 0x07#8 }) ∧
  (∀ (w x : Byte) (s : State), s.fault = false →
    ¬ (1 ≤ w.toNat ∧ w.toNat ≤ 50 ∧ 1 ≤ x.toNat ∧ x.toNat ≤ 50 ∧ x.toNat + w.toNat - 1 ≤ 50) →
    exec (.flush w x) s = .next { s with fault := true, cause :=
      if w.toNat < 1 ∨ 50 < w.toNat then 0x05#8 else if x.toNat < 1 ∨ 50 < x.toNat then 0x02#8 else 0x07#8 })

/-- R183: whenever the decoder answers a fault cause, the step takes that fault: FAULT is set, CAUSE is the code, nothing else
changes but that the command's header (or its reserved opcode byte) is consumed, and no byte of its payload is. All that
earlier commands did stands (what the latches hold after a fault is log 6, and is not said here). -/
def Obligations.FaultIsPreciseAtCommandGranularity : Prop :=
  ∀ (s : State) (c : Cause) (header : Option Instr) (rest : List Byte), ready s = true →
    decode (s.latched ++ s.port) = .rejected c header rest →
    (∃ t, step s = .next t ∧ t = { s with
      fault := true
      cause := causeCode c
      latched := t.latched
      port := rest
      position := s.position + (s.port.length - rest.length) }) ∧
    match header with
    | none => ∃ op, s.latched ++ s.port = op :: rest
    | some i => payload i = [] ∧ s.latched ++ s.port = encode i ++ rest

/-- R24: FAULT is set by a fault and by nothing else: a step from FAULT = 0 to FAULT = 1 is one whose bytes the decoder
answered with a cause, and it changes neither the framebuffer nor the emitted sequence. -/
def Obligations.OnlyAFaultSetsTheFlag : Prop :=
  ∀ s t : State, s.fault = false → step s = .next t → t.fault = true →
    (∃ c header rest, decode (s.latched ++ s.port) = .rejected c header rest ∧ t.cause = causeCode c) ∧
      t.vfb = s.vfb ∧ t.emitted = s.emitted

/-- R184: in the halted state a step consumes and discards bytes of the port (at least one, if there is one) and changes
nothing else, no command has an effect, only a reset leaves the state, and a run that ends in it has not finished. -/
def Obligations.HaltedBlockDiscards : Prop :=
  ∀ s : State, s.fault = true →
    (s.resetPending = false → ∃ t taken, step s = .next t ∧ s.port = taken ++ t.port ∧ (s.port ≠ [] → taken ≠ []) ∧
      t = { s with port := t.port, position := s.position + taken.length }) ∧
    (∀ i, exec i s = .next s) ∧
    (∀ t, step s = .next t → t.fault = false → s.resetPending = true) ∧
    finished s = false

/-- R184, R185: whatever bytes the host delivers, and for as long as it asserts no reset, a halted block stays halted with the
same cause, the same framebuffer and the same emitted sequence, and consumes every byte (all that is there in one step: the
model's choice, log 7). -/
def Obligations.HaltedStateIsLeftOnlyByReset : Prop :=
  ∀ (chunks : List (List Byte)) (s : State), s.fault = true → s.resetPending = false → chunks ≠ [] →
    runDelivering chunks s = .next { s with
      port := []
      position := s.position + (s.port.length + chunks.flatten.length) }

/-- In the model every state has a next state: no step ends in a fault or a refusal of the model. No rule says so; two entries
of the log do: a block that waits for bytes answers a next state, which the spec's U12 calls stuck, with no further step (log 5),
and the sink accepts each operation in the step that emits it, where R56 has a block wait for ever for one that never does
(log 8). From the spec come only that the decoder is total (R74) and that no access is outside the framebuffer once the operand
checks pass (R40, R97; the model's guard is log 10). -/
def Obligations.BlockNeverStops : Prop :=
  ∀ s : State, ∃ t, step s = .next t

/-! ## Reset and the invariant -/

/-- R29, R210: asserted in any state, reset is one transition to FAULT 0, CAUSE 0, empty latches, position 0 and an empty
emitted sequence; the bytes on the port are lost. That the request is a bit which the transition takes away is log 4. Every cell of VFB is the free value of the draw (log 1), so nothing is said
of its contents. -/
def Obligations.ResetIsOneTransition : Prop :=
  ∀ s : State, s.resetPending = true → ∃ t, step s = .next t ∧ t.fault = false ∧ t.cause = 0x00#8 ∧ t.latched = [] ∧
    t.position = 0 ∧ t.emitted = [] ∧ t.port = [] ∧ t.resetPending = false ∧
    ∀ a, t.cell a = Config.vfbAtReset t.resets a

/-- The state after reset meets the invariant. -/
def Obligations.ResetStateIsLegal : Prop :=
  legal State.reset = true

/-- Every step keeps the invariant, from every state that meets it: the framebuffer's list stays canonical and inside VFB
(R40), FAULT and CAUSE agree (R25), the latches hold no more than part of a command (R22), and the emitted sequence names only
display cells and never writes without a cursor (R27, R47). -/
def Obligations.EveryStepKeepsTheInvariant : Prop :=
  ∀ s t : State, legal s = true → step s = .next t → legal t = true

/-- R48(d), R27, R49: without a reset, a step only appends to the emitted sequence, and what it appends has a meaning on a
display whose cursor is unset: no command depends on a cursor left by an earlier one. -/
def Obligations.EveryCommandSetsItsOwnCursor : Prop :=
  ∀ s t : State, s.resetPending = false → step s = .next t →
    ∃ ops, t.emitted = s.emitted ++ ops ∧ drawable ops = true

/-! ## The reference display -/

/-- R110 (corner cases), R224: on the reference display PLACE_COLUMN replaces the whole cells it writes and touches no other. -/
def Obligations.PlaceColumnReplacesWholeCells : Prop :=
  ∀ (x y col : Byte) (s : State) (d : Display), s.fault = false → 1 ≤ x.toNat → x.toNat ≤ 50 → 1 ≤ y.toNat →
    y.toNat ≤ 16 →
    ∃ t ops d', exec (.placeColumn x y col) s = .next t ∧ t.emitted = s.emitted ++ ops ∧ d.run ops = some d' ∧
      d'.cursor = none ∧
      ∀ cx p, 1 ≤ cx → cx ≤ 50 → 1 ≤ p → p ≤ 2 →
        (cx = x.toNat → p = (y.toNat - 1) / 8 + 1 → ∀ j, j < 8 →
          (d'.cellAt cx p).getLsbD j =
            (decide ((y.toNat - 1) % 8 ≤ j) && col.getLsbD (j - (y.toNat - 1) % 8))) ∧
        (cx = x.toNat → 2 ≤ y.toNat → y.toNat ≤ 8 → p = 2 → ∀ j, j < 8 →
          (d'.cellAt cx p).getLsbD j = (decide (j < y.toNat - 1) && col.getLsbD (j + 9 - y.toNat))) ∧
        (¬ (cx = x.toNat ∧ (p = (y.toNat - 1) / 8 + 1 ∨ (2 ≤ y.toNat ∧ y.toNat ≤ 8 ∧ p = 2))) →
          d'.cellAt cx p = d.cellAt cx p)

/-- R113: PLACE_IMAGE and the columns placed one by one leave the reference display with the same cells. They differ in the
cursor: set just past the last column written (unset past the last column of the display), or unset. -/
def Obligations.ImageAndColumnsDrawTheSamePicture : Prop :=
  ∀ (x y n : Byte) (c : List Byte) (s : State) (d : Display), s.fault = false →
    wellFormed (.placeImage x y n c) = true →
    ∃ t u ops ops' d₁ d₂, exec (.placeImage x y n c) s = .next t ∧ t.emitted = s.emitted ++ ops ∧
      execAll (c.zipIdx.map fun (b, i) => .placeColumn (x + BitVec.ofNat 8 i) y b) s = .next u ∧
      u.emitted = s.emitted ++ ops' ∧ d.run ops = some d₁ ∧ d.run ops' = some d₂ ∧
      (∀ col page, 1 ≤ col → col ≤ 50 → 1 ≤ page → page ≤ 2 → d₁.cellAt col page = d₂.cellAt col page) ∧
      d₂.cursor = none ∧
      d₁.cursor = if x.toNat + n.toNat ≤ 50
        then some (x.toNat + n.toNat, if y.toNat = 1 then 1 else 2) else none

/-- R225, R132: FLUSH rewrites the rectangle of columns `x .. x+W-1` of both pages with the buffer's cells, zero bytes
included, and no other cell of the reference display. -/
def Obligations.FlushRewritesItsRectangle : Prop :=
  ∀ (w x : Byte) (s : State) (d : Display), s.fault = false → wellFormed (.flush w x) = true →
    ∃ t ops d', exec (.flush w x) s = .next t ∧ t.emitted = s.emitted ++ ops ∧ d.run ops = some d' ∧
      ∀ col page, 1 ≤ col → col ≤ 50 → 1 ≤ page → page ≤ 2 →
        d'.cellAt col page =
          if x.toNat ≤ col ∧ col < x.toNat + w.toNat then s.cell ((page - 1) * w.toNat + (col - x.toNat))
          else d.cellAt col page

/-! ## Draw cycles and the reel pseudo-instructions -/

/-- R134: after CLEAR 2W, any sequence of OR_PLACE commands of width W, then FLUSH: the bytes streamed are the OR, cell by cell,
of the bytes each OR_PLACE alone, after the same CLEAR, leaves. -/
def Obligations.DrawCycleStreamsTheOrOfItsSprites : Prop :=
  ∀ (w x : Byte) (body : List Instr) (s : State), s.fault = false → wellFormed (.flush w x) = true →
    (∀ i ∈ body, wellFormed i = true ∧ orPlaceOfWidth w i = true) →
    ∃ t, execAll (drawCycle w x body) s = .next t ∧ t.fault = false ∧
      t.emitted = s.emitted ++
        (.setCursor x.toNat 1 :: (List.range w.toNat).map fun a =>
          .writeData ((body.map (drawnAlone s w a)).foldl (· ||| ·) 0x00#8)) ++
        (.setCursor x.toNat 2 :: (List.range w.toNat).map fun a =>
          .writeData ((body.map (drawnAlone s w (w.toNat + a))).foldl (· ||| ·) 0x00#8))

/-- R220, R221: a draw cycle begins with its CLEAR, so what the framebuffer held before it, the unspecified contents after reset
among them, has no influence on what it sends to the display. -/
def Obligations.DrawCycleHidesTheOldBuffer : Prop :=
  ∀ (w x : Byte) (body : List Instr) (s s' : State), s.fault = false → s'.fault = false → s'.emitted = s.emitted →
    wellFormed (.flush w x) = true → (∀ i ∈ body, wellFormed i = true ∧ orPlaceOfWidth w i = true) →
    ∃ t t', execAll (drawCycle w x body) s = .next t ∧ execAll (drawCycle w x body) s' = .next t' ∧
      t'.emitted = t.emitted

/-- R162: the row of the center image is `H + 1 - (pos mod (H+1))`, so it lies in 1..9. -/
def Obligations.ReelRowStaysOnTheBuffer : Prop :=
  ∀ pos : Nat, reelRow pos = 9 - pos % 9 ∧ 1 ≤ reelRow pos ∧ reelRow pos ≤ 9

/-- R166: ROLL_STEP adds 1 modulo the period, and a position of the reel stays one. -/
def Obligations.RollStepWrapsAtThePeriod : Prop :=
  ∀ n pos : Nat, pos < reelPeriod n →
    rollStep n pos = (pos + 1) % (n * 9) ∧ rollStep n pos < reelPeriod n

/-- R165: REEL_DRAW on a cleared buffer shows the strip: buffer row `r` shows reel row `pos + r - 9` modulo the period, that is
row `q mod 9` of image `q div 9`, and the blank separator where `q mod 9` is 8. -/
def Obligations.ReelDrawShowsTheStrip : Prop :=
  ∀ (reel : Reel) (w x : Byte) (pos : Nat) (s : State), s.fault = false →
    1 ≤ w.toNat → w.toNat ≤ 50 → 1 ≤ x.toNat → 1 ≤ reel.columns → x.toNat + reel.columns - 1 ≤ w.toNat →
    (∀ image ∈ reel.table, image.length = reel.columns) → pos < reelPeriod reel.count →
    (∀ a, a < 2 * w.toNat → s.cell a = 0x00#8) →
    ∃ t, execAll (reel.draw w x pos) s = .next t ∧ t.fault = false ∧
      ∀ i r, i < reel.columns → 1 ≤ r → r ≤ 16 →
        t.pix w.toNat (x.toNat + i) r =
          (let q := (pos + r + reelPeriod reel.count - 9) % reelPeriod reel.count
           decide (q % 9 ≤ 7) && ((reel.image (q / 9)).getD i 0x00#8).getLsbD (q % 9))
end

