-- ==== Sys2Proof/Laws/Decode.lean ====
section
/-! SUPPORT. One lemma per part of the decoder that says all it can answer. -/

namespace Sys2Proof

open Machine (Cause operandFault)

/-- What follows a header: its fault, or the payload's answer. -/
theorem afterHeader_eq (header : Instr) (rest : List Byte) (d : Decoded) :
    (∃ c, operandFault header = some c ∧ afterHeader header rest d = .rejected c (some header) rest) ∨
      (operandFault header = none ∧ afterHeader header rest d = d) := by
  unfold afterHeader
  cases h : operandFault header with
  | none => exact .inr ⟨rfl, rfl⟩
  | some c => exact .inl ⟨c, rfl, rfl⟩

theorem afterHeader_of_none {header : Instr} {rest : List Byte} {d : Decoded} (h : operandFault header = none) :
    afterHeader header rest d = d := by
  simp [afterHeader, h]

theorem afterHeader_of_some {header : Instr} {rest : List Byte} {d : Decoded} {c : Cause}
    (h : operandFault header = some c) : afterHeader header rest d = .rejected c (some header) rest := by
  simp [afterHeader, h]

/-- A payload that is there is taken whole. -/
theorem takePayload_append {n : Nat} {make : List Byte → Instr} {c rest : List Byte} (h : c.length = n) :
    takePayload n make (c ++ rest) = .command (make c) rest := by
  subst h
  simp [takePayload]

/-- A payload that is not there is waited for. -/
theorem takePayload_short {n : Nat} {make : List Byte → Instr} {bytes : List Byte} (h : bytes.length < n) :
    takePayload n make bytes = .incomplete := by
  simp [takePayload, Nat.not_le.mpr h]

theorem takePayload_of_le {n : Nat} {make : List Byte → Instr} {bytes : List Byte} (h : n ≤ bytes.length) :
    takePayload n make bytes = .command (make (bytes.take n)) (bytes.drop n) := by
  simp [takePayload, h]

/-- The decoder by opcode. -/
@[simp] theorem decode_nil : decode [] = .incomplete := rfl
@[simp] theorem decode_placeColumn (bytes : List Byte) : decode (0x01#8 :: bytes) = decodeC bytes := rfl
@[simp] theorem decode_placeImage (bytes : List Byte) : decode (0x02#8 :: bytes) = decodeI bytes := rfl
@[simp] theorem decode_clear (bytes : List Byte) : decode (0x03#8 :: bytes) = decodeS bytes := rfl
@[simp] theorem decode_orPlace (bytes : List Byte) : decode (0x04#8 :: bytes) = decodeB bytes := rfl
@[simp] theorem decode_flush (bytes : List Byte) : decode (0x05#8 :: bytes) = decodeF bytes := rfl

end Sys2Proof
end

