-- ==== Sys2Proof/Laws/Memory.lean ====
section
/-! SUPPORT. The laws of the framebuffer's list: read after write, the canonical form is kept, and equal contents are
equal data. -/

namespace Sys2Proof.Machine

/-- Read after write, for every list. -/
theorem Memory.find?_write (m : Memory) (a k : Nat) (v : Byte) :
    (m.write a v).find? k = if k = a then some v else m.find? k := by
  induction m with
  | nil => simp only [Memory.write, Memory.find?, eq_comm]
  | cons e m ih =>
    obtain ⟨j, b⟩ := e
    by_cases h1 : a < j
    · by_cases h2 : k = a
      · simp [Memory.write, Memory.find?, h1, h2]
      · have : ¬ a = k := fun h => h2 h.symm
        simp [Memory.write, Memory.find?, h1, h2, this]
    · by_cases h2 : a = j
      · subst h2
        by_cases h3 : k = a
        · simp [Memory.write, Memory.find?, h3]
        · have : ¬ a = k := fun h => h3 h.symm
          simp [Memory.write, Memory.find?, h3, this]
      · by_cases h3 : j = k
        · have : ¬ k = a := fun h => h2 (h.symm.trans h3.symm)
          subst h3
          simp [Memory.write, Memory.find?, h1, h2, this]
        · simp [Memory.write, Memory.find?, h1, h2, h3, ih]

@[simp] theorem Memory.find?_write_same (m : Memory) (a : Nat) (v : Byte) : (m.write a v).find? a = some v := by
  simp [Memory.find?_write]

theorem Memory.find?_write_other (m : Memory) {a k : Nat} (v : Byte) (h : k ≠ a) :
    (m.write a v).find? k = m.find? k := by
  simp [Memory.find?_write, h]

/-- A list that rises from `lo` rises from any lower bound. -/
theorem Memory.risesFrom_of_le {lo lo' : Nat} (m : Memory) (h : lo' ≤ lo) (hm : m.risesFrom lo = true) :
    m.risesFrom lo' = true := by
  cases m with
  | nil => rfl
  | cons e m =>
    simp only [Memory.risesFrom, Bool.and_eq_true, decide_eq_true_eq] at hm ⊢
    exact ⟨⟨h.trans hm.1.1, hm.1.2⟩, hm.2⟩

/-- A write inside VFB keeps the list rising. -/
theorem Memory.risesFrom_write {lo a : Nat} (m : Memory) (v : Byte) (hm : m.risesFrom lo = true) (hlo : lo ≤ a)
    (ha : a < Config.vfbBytes) : (m.write a v).risesFrom lo = true := by
  induction m generalizing lo with
  | nil => simp [Memory.write, Memory.risesFrom, hlo, ha]
  | cons e m ih =>
    obtain ⟨j, b⟩ := e
    simp only [Memory.risesFrom, Bool.and_eq_true, decide_eq_true_eq] at hm
    obtain ⟨⟨h1, h2⟩, h3⟩ := hm
    by_cases hj : a < j
    · have : a + 1 ≤ j := hj
      simp [Memory.write, Memory.risesFrom, hj, hlo, ha, this, h2, h3]
    · by_cases he : a = j
      · subst he
        simp [Memory.write, Memory.risesFrom, hlo, ha, h3]
      · have : j + 1 ≤ a := by omega
        simp [Memory.write, Memory.risesFrom, hj, he, h1, h2, ih h3 this]

/-- Every write inside VFB keeps the canonical form. -/
theorem Memory.wf_write (m : Memory) {a : Nat} (v : Byte) (hm : m.wf = true) (ha : a < Config.vfbBytes) :
    (m.write a v).wf = true :=
  Memory.risesFrom_write m v hm (Nat.zero_le a) ha

/-- A rising list has nothing below its bound. -/
theorem Memory.find?_below {lo k : Nat} (m : Memory) (hm : m.risesFrom lo = true) (hk : k < lo) :
    m.find? k = none := by
  induction m generalizing lo with
  | nil => rfl
  | cons e m ih =>
    obtain ⟨j, b⟩ := e
    simp only [Memory.risesFrom, Bool.and_eq_true, decide_eq_true_eq] at hm
    have hne : ¬ j = k := by omega
    simp only [Memory.find?, if_neg hne]
    exact ih hm.2 (by omega)

/-- A canonical list lists nothing outside VFB (R40). -/
theorem Memory.find?_outside {lo k : Nat} (m : Memory) (hm : m.risesFrom lo = true) (hk : Config.vfbBytes ≤ k) :
    m.find? k = none := by
  induction m generalizing lo with
  | nil => rfl
  | cons e m ih =>
    obtain ⟨j, b⟩ := e
    simp only [Memory.risesFrom, Bool.and_eq_true, decide_eq_true_eq] at hm
    have hne : ¬ j = k := by omega
    simp only [Memory.find?, if_neg hne]
    exact ih hm.2

/-- Two rising lists with the same contents are the same list. -/
theorem Memory.ext_of_risesFrom {lo : Nat} (m m' : Memory) (hm : m.risesFrom lo = true)
    (hm' : m'.risesFrom lo = true) (h : ∀ k, m.find? k = m'.find? k) : m = m' := by
  induction m generalizing lo m' with
  | nil =>
    cases m' with
    | nil => rfl
    | cons e m' =>
      have := h e.1
      simp [Memory.find?] at this
  | cons e m ih =>
    obtain ⟨j, b⟩ := e
    cases m' with
    | nil =>
      have := h j
      simp [Memory.find?] at this
    | cons e' m' =>
      obtain ⟨j', b'⟩ := e'
      simp only [Memory.risesFrom, Bool.and_eq_true, decide_eq_true_eq] at hm hm'
      have hj : j = j' := by
        rcases Nat.lt_trichotomy j j' with hlt | heq | hgt
        · have hk := h j
          have hne : ¬ j' = j := by omega
          rw [show Memory.find? ((j', b') :: m') j = Memory.find? m' j by simp [Memory.find?, hne],
            Memory.find?_below m' hm'.2 (by omega)] at hk
          simp [Memory.find?] at hk
        · exact heq
        · have hk := h j'
          have hne : ¬ j = j' := by omega
          rw [show Memory.find? ((j, b) :: m) j' = Memory.find? m j' by simp [Memory.find?, hne],
            Memory.find?_below m hm.2 (by omega)] at hk
          simp [Memory.find?] at hk
      subst hj
      have hb : b = b' := by
        have := h j
        simpa [Memory.find?] using this
      subst hb
      have hrest : m = m' := by
        refine ih m' hm.2 hm'.2 fun k => ?_
        by_cases hk : j = k
        · subst hk
          rw [Memory.find?_below m hm.2 (by omega), Memory.find?_below m' hm'.2 (by omega)]
        · have := h k
          simpa [Memory.find?, hk] using this
      rw [hrest]

/-- Equal memories are equal data. -/
theorem Memory.ext_of_wf (m m' : Memory) (hm : m.wf = true) (hm' : m'.wf = true)
    (h : ∀ k, m.find? k = m'.find? k) : m = m' :=
  Memory.ext_of_risesFrom m m' hm hm' h

end Sys2Proof.Machine
end

