-- ==== Sys2Proof/Laws/State.lean ====
section
/-! SUPPORT. One lemma per field of State per update, true by rfl, so that no later proof unfolds a record update. -/

namespace Sys2Proof.Machine

variable (s : State)

/-! setCell -/

@[simp] theorem setCell_vfb (a : Nat) (v : Byte) : (s.setCell a v).vfb = s.vfb.write a v := rfl
@[simp] theorem setCell_fault (a : Nat) (v : Byte) : (s.setCell a v).fault = s.fault := rfl
@[simp] theorem setCell_cause (a : Nat) (v : Byte) : (s.setCell a v).cause = s.cause := rfl
@[simp] theorem setCell_latched (a : Nat) (v : Byte) : (s.setCell a v).latched = s.latched := rfl
@[simp] theorem setCell_position (a : Nat) (v : Byte) : (s.setCell a v).position = s.position := rfl
@[simp] theorem setCell_emitted (a : Nat) (v : Byte) : (s.setCell a v).emitted = s.emitted := rfl
@[simp] theorem setCell_port (a : Nat) (v : Byte) : (s.setCell a v).port = s.port := rfl
@[simp] theorem setCell_resetPending (a : Nat) (v : Byte) : (s.setCell a v).resetPending = s.resetPending := rfl
@[simp] theorem setCell_resets (a : Nat) (v : Byte) : (s.setCell a v).resets = s.resets := rfl

/-! orCell -/

@[simp] theorem orCell_vfb (a : Nat) (v : Byte) : (s.orCell a v).vfb = s.vfb.write a (s.cell a ||| v) := rfl
@[simp] theorem orCell_fault (a : Nat) (v : Byte) : (s.orCell a v).fault = s.fault := rfl
@[simp] theorem orCell_cause (a : Nat) (v : Byte) : (s.orCell a v).cause = s.cause := rfl
@[simp] theorem orCell_latched (a : Nat) (v : Byte) : (s.orCell a v).latched = s.latched := rfl
@[simp] theorem orCell_position (a : Nat) (v : Byte) : (s.orCell a v).position = s.position := rfl
@[simp] theorem orCell_emitted (a : Nat) (v : Byte) : (s.orCell a v).emitted = s.emitted := rfl
@[simp] theorem orCell_port (a : Nat) (v : Byte) : (s.orCell a v).port = s.port := rfl
@[simp] theorem orCell_resetPending (a : Nat) (v : Byte) : (s.orCell a v).resetPending = s.resetPending := rfl
@[simp] theorem orCell_resets (a : Nat) (v : Byte) : (s.orCell a v).resets = s.resets := rfl

/-! emit -/

@[simp] theorem emit_vfb (ops : List SinkOp) : (s.emit ops).vfb = s.vfb := rfl
@[simp] theorem emit_fault (ops : List SinkOp) : (s.emit ops).fault = s.fault := rfl
@[simp] theorem emit_cause (ops : List SinkOp) : (s.emit ops).cause = s.cause := rfl
@[simp] theorem emit_latched (ops : List SinkOp) : (s.emit ops).latched = s.latched := rfl
@[simp] theorem emit_position (ops : List SinkOp) : (s.emit ops).position = s.position := rfl
@[simp] theorem emit_emitted (ops : List SinkOp) : (s.emit ops).emitted = s.emitted ++ ops := rfl
@[simp] theorem emit_port (ops : List SinkOp) : (s.emit ops).port = s.port := rfl
@[simp] theorem emit_resetPending (ops : List SinkOp) : (s.emit ops).resetPending = s.resetPending := rfl
@[simp] theorem emit_resets (ops : List SinkOp) : (s.emit ops).resets = s.resets := rfl

/-! consume -/

@[simp] theorem consume_vfb (rest : List Byte) : (s.consume rest).vfb = s.vfb := rfl
@[simp] theorem consume_fault (rest : List Byte) : (s.consume rest).fault = s.fault := rfl
@[simp] theorem consume_cause (rest : List Byte) : (s.consume rest).cause = s.cause := rfl
@[simp] theorem consume_latched (rest : List Byte) : (s.consume rest).latched = [] := rfl
@[simp] theorem consume_position (rest : List Byte) : (s.consume rest).position = s.position + (s.port.length - rest.length) := rfl
@[simp] theorem consume_emitted (rest : List Byte) : (s.consume rest).emitted = s.emitted := rfl
@[simp] theorem consume_port (rest : List Byte) : (s.consume rest).port = rest := rfl
@[simp] theorem consume_resetPending (rest : List Byte) : (s.consume rest).resetPending = s.resetPending := rfl
@[simp] theorem consume_resets (rest : List Byte) : (s.consume rest).resets = s.resets := rfl

/-! latchPort -/

@[simp] theorem latchPort_vfb : (s.latchPort).vfb = s.vfb := rfl
@[simp] theorem latchPort_fault : (s.latchPort).fault = s.fault := rfl
@[simp] theorem latchPort_cause : (s.latchPort).cause = s.cause := rfl
@[simp] theorem latchPort_latched : (s.latchPort).latched = s.latched ++ s.port := rfl
@[simp] theorem latchPort_position : (s.latchPort).position = s.position + s.port.length := rfl
@[simp] theorem latchPort_emitted : (s.latchPort).emitted = s.emitted := rfl
@[simp] theorem latchPort_port : (s.latchPort).port = [] := rfl
@[simp] theorem latchPort_resetPending : (s.latchPort).resetPending = s.resetPending := rfl
@[simp] theorem latchPort_resets : (s.latchPort).resets = s.resets := rfl

/-! discardPort -/

@[simp] theorem discardPort_vfb : (s.discardPort).vfb = s.vfb := rfl
@[simp] theorem discardPort_fault : (s.discardPort).fault = s.fault := rfl
@[simp] theorem discardPort_cause : (s.discardPort).cause = s.cause := rfl
@[simp] theorem discardPort_latched : (s.discardPort).latched = s.latched := rfl
@[simp] theorem discardPort_position : (s.discardPort).position = s.position + s.port.length := rfl
@[simp] theorem discardPort_emitted : (s.discardPort).emitted = s.emitted := rfl
@[simp] theorem discardPort_port : (s.discardPort).port = [] := rfl
@[simp] theorem discardPort_resetPending : (s.discardPort).resetPending = s.resetPending := rfl
@[simp] theorem discardPort_resets : (s.discardPort).resets = s.resets := rfl

/-! deliver -/

@[simp] theorem deliver_vfb (bytes : List Byte) : (s.deliver bytes).vfb = s.vfb := rfl
@[simp] theorem deliver_fault (bytes : List Byte) : (s.deliver bytes).fault = s.fault := rfl
@[simp] theorem deliver_cause (bytes : List Byte) : (s.deliver bytes).cause = s.cause := rfl
@[simp] theorem deliver_latched (bytes : List Byte) : (s.deliver bytes).latched = s.latched := rfl
@[simp] theorem deliver_position (bytes : List Byte) : (s.deliver bytes).position = s.position := rfl
@[simp] theorem deliver_emitted (bytes : List Byte) : (s.deliver bytes).emitted = s.emitted := rfl
@[simp] theorem deliver_port (bytes : List Byte) : (s.deliver bytes).port = s.port ++ bytes := rfl
@[simp] theorem deliver_resetPending (bytes : List Byte) : (s.deliver bytes).resetPending = s.resetPending := rfl
@[simp] theorem deliver_resets (bytes : List Byte) : (s.deliver bytes).resets = s.resets := rfl

/-! takeFault -/

@[simp] theorem takeFault_vfb (c : Cause) : (takeFault c s).vfb = s.vfb := rfl
@[simp] theorem takeFault_fault (c : Cause) : (takeFault c s).fault = true := rfl
@[simp] theorem takeFault_cause (c : Cause) : (takeFault c s).cause = causeCode c := rfl
@[simp] theorem takeFault_latched (c : Cause) : (takeFault c s).latched = s.latched := rfl
@[simp] theorem takeFault_position (c : Cause) : (takeFault c s).position = s.position := rfl
@[simp] theorem takeFault_emitted (c : Cause) : (takeFault c s).emitted = s.emitted := rfl
@[simp] theorem takeFault_port (c : Cause) : (takeFault c s).port = s.port := rfl
@[simp] theorem takeFault_resetPending (c : Cause) : (takeFault c s).resetPending = s.resetPending := rfl
@[simp] theorem takeFault_resets (c : Cause) : (takeFault c s).resets = s.resets := rfl

/-! requestReset -/

@[simp] theorem requestReset_vfb : (s.requestReset).vfb = s.vfb := rfl
@[simp] theorem requestReset_fault : (s.requestReset).fault = s.fault := rfl
@[simp] theorem requestReset_cause : (s.requestReset).cause = s.cause := rfl
@[simp] theorem requestReset_latched : (s.requestReset).latched = s.latched := rfl
@[simp] theorem requestReset_position : (s.requestReset).position = s.position := rfl
@[simp] theorem requestReset_emitted : (s.requestReset).emitted = s.emitted := rfl
@[simp] theorem requestReset_port : (s.requestReset).port = s.port := rfl
@[simp] theorem requestReset_resetPending : (s.requestReset).resetPending = true := rfl
@[simp] theorem requestReset_resets : (s.requestReset).resets = s.resets := rfl

/-! afterReset -/

@[simp] theorem afterReset_vfb : (s.afterReset).vfb = [] := rfl
@[simp] theorem afterReset_fault : (s.afterReset).fault = false := rfl
@[simp] theorem afterReset_cause : (s.afterReset).cause = 0x00#8 := rfl
@[simp] theorem afterReset_latched : (s.afterReset).latched = [] := rfl
@[simp] theorem afterReset_position : (s.afterReset).position = 0 := rfl
@[simp] theorem afterReset_emitted : (s.afterReset).emitted = [] := rfl
@[simp] theorem afterReset_port : (s.afterReset).port = [] := rfl
@[simp] theorem afterReset_resetPending : (s.afterReset).resetPending = false := rfl
@[simp] theorem afterReset_resets : (s.afterReset).resets = s.resets + 1 := rfl

end Sys2Proof.Machine
end

