-- ==== Sys2Proof/Laws/Ops.lean ====
section
/-! SUPPORT. One lemma per shared operation that says all it can do: the framebuffer's cells, the bounds guard, the frame
every command runs in. -/

namespace Sys2Proof.Machine

variable (s : State)

/-! The constants as numerals. Proved by evaluation, not by rfl, so that simp rewrites a condition's decidability with it. -/

@[simp] theorem vfbBytes_eq : Config.vfbBytes = 100 := by decide
@[simp] theorem width_eq : Config.width = 50 := by decide
@[simp] theorem pages_eq : Config.pages = 2 := by decide
@[simp] theorem height_eq : Config.height = 16 := by decide
@[simp] theorem reelHeight_eq : Config.reelHeight = 8 := by decide

/-! Cells. -/

/-- Only `vfb` and `resets` decide what a cell reads as. -/
theorem cell_congr {s t : State} (hv : t.vfb = s.vfb) (hr : t.resets = s.resets) (k : Nat) : t.cell k = s.cell k := by
  simp [State.cell, hv, hr]

theorem cell_setCell (a k : Nat) (v : Byte) : (s.setCell a v).cell k = if k = a then v else s.cell k := by
  by_cases h : k = a <;> simp [State.cell, Memory.find?_write, h]

theorem cell_orCell (a k : Nat) (v : Byte) :
    (s.orCell a v).cell k = if k = a then s.cell k ||| v else s.cell k := by
  by_cases h : k = a <;> simp [State.orCell, cell_setCell, h]

@[simp] theorem cell_emit (ops : List SinkOp) (k : Nat) : (s.emit ops).cell k = s.cell k := rfl
@[simp] theorem cell_consume (rest : List Byte) (k : Nat) : (s.consume rest).cell k = s.cell k := rfl
@[simp] theorem cell_latchPort (k : Nat) : s.latchPort.cell k = s.cell k := rfl
@[simp] theorem cell_discardPort (k : Nat) : s.discardPort.cell k = s.cell k := rfl
@[simp] theorem cell_deliver (bytes : List Byte) (k : Nat) : (s.deliver bytes).cell k = s.cell k := rfl
@[simp] theorem cell_takeFault (c : Cause) (k : Nat) : (takeFault c s).cell k = s.cell k := rfl

/-- After a reset every cell reads as the free value of its draw (R29). -/
@[simp] theorem cell_afterReset (k : Nat) : s.afterReset.cell k = Config.vfbAtReset (s.resets + 1) k := rfl
@[simp] theorem cell_reset (k : Nat) : State.reset.cell k = Config.vfbAtReset 0 k := rfl

/-- The framebuffer's list is canonical after reset. -/
theorem reset_vfb_wf : State.reset.vfb.wf = true := rfl
theorem afterReset_vfb_wf : s.afterReset.vfb.wf = true := rfl

/-- An update that changes VFB only. -/
theorem setCell_frame (a : Nat) (v : Byte) : s.setCell a v = { s with vfb := (s.setCell a v).vfb } := rfl
theorem orCell_frame (a : Nat) (v : Byte) : s.orCell a v = { s with vfb := (s.orCell a v).vfb } := rfl

/-! CLEAR's loop. -/

theorem zeroCells_frame (n : Nat) : s.zeroCells n = { s with vfb := (s.zeroCells n).vfb } := by
  induction n with
  | zero => rfl
  | succ n ih =>
    simp only [State.zeroCells, setCell_vfb]
    conv_lhs => rw [ih]
    rfl

theorem cell_zeroCells (n k : Nat) : (s.zeroCells n).cell k = if k < n then 0x00#8 else s.cell k := by
  induction n with
  | zero => simp [State.zeroCells]
  | succ n ih =>
    simp only [State.zeroCells, cell_setCell, ih]
    by_cases h1 : k = n
    · simp [h1]
    · have : k < n + 1 ↔ k < n := by omega
      simp [h1, this]

theorem zeroCells_wf {n : Nat} (hs : s.vfb.wf = true) (hn : n ≤ Config.vfbBytes) : (s.zeroCells n).vfb.wf = true := by
  induction n with
  | zero => exact hs
  | succ n ih => exact Memory.wf_write _ _ (ih (by omega)) (by omega)

/-! OR_PLACE's loop. -/

/-- The byte a run of bytes placed from cell `a` on contributes to cell `k`; 0 outside the run. -/
def runByte (a : Nat) (bytes : List Byte) (k : Nat) : Byte :=
  if a ≤ k then (bytes[k - a]?).getD 0x00#8 else 0x00#8

theorem orColumn_frame (w offset : Nat) (spill : Bool) (a : Nat) (c : Byte) :
    orColumn w offset spill a c s = { s with vfb := (orColumn w offset spill a c s).vfb } := by
  cases spill <;> rfl

theorem orColumns_frame (w offset : Nat) (spill : Bool) (a : Nat) (cs : List Byte) :
    orColumns w offset spill a cs s = { s with vfb := (orColumns w offset spill a cs s).vfb } := by
  induction cs generalizing a s with
  | nil => rfl
  | cons c cs ih =>
    simp only [orColumns]
    rw [ih]
    cases spill <;> rfl

theorem cell_orColumn (w offset : Nat) (spill : Bool) (a : Nat) (c : Byte) (k : Nat) :
    (orColumn w offset spill a c s).cell k =
      s.cell k ||| (if k = a then primaryByte offset c else 0x00#8) |||
        (if spill = true ∧ k = a + w then spillByte offset c else 0x00#8) := by
  cases spill <;> simp only [orColumn, cell_orCell, Bool.false_eq_true, if_false, if_true, false_and, true_and] <;>
    split_ifs <;> simp_all [BitVec.or_assoc]

/-- Everything OR_PLACE's loop does to a cell: it ORs in the primary run and, where there is a spill, the spill run. -/
theorem cell_orColumns (w offset : Nat) (spill : Bool) (a : Nat) (cs : List Byte) (k : Nat) :
    (orColumns w offset spill a cs s).cell k =
      s.cell k ||| runByte a (cs.map (primaryByte offset)) k |||
        (if spill then runByte (a + w) (cs.map (spillByte offset)) k else 0x00#8) := by
  induction cs generalizing a s with
  | nil => cases spill <;> simp [orColumns, runByte]
  | cons c cs ih =>
    simp only [orColumns, ih, cell_orColumn]
    have key : ∀ (f : Byte → Byte) (b : Nat), runByte b ((c :: cs).map f) k =
        (if k = b then f c else 0x00#8) ||| runByte (b + 1) (cs.map f) k := by
      intro f b
      rcases Nat.lt_trichotomy k b with h | h | h
      · have h1 : ¬ b ≤ k := by omega
        have h2 : ¬ k = b := by omega
        have h3 : ¬ b + 1 ≤ k := by omega
        simp [runByte, h1, h2, h3]
      · subst h
        simp [runByte]
      · have h1 : b ≤ k := by omega
        have h2 : ¬ k = b := by omega
        have h3 : b + 1 ≤ k := by omega
        obtain ⟨j, rfl⟩ : ∃ j, k = b + 1 + j := ⟨k - (b + 1), by omega⟩
        have h4 : b + 1 + j - b = j + 1 := by omega
        have h5 : b + 1 + j - (b + 1) = j := by omega
        simp [runByte, h1, h2, h4, h5]
    rw [key, key, show a + 1 + w = a + w + 1 by omega]
    cases spill
    · simp [BitVec.or_assoc]
    · simp only [true_and, if_true]
      ac_rfl

theorem orColumn_wf {w offset : Nat} {spill : Bool} {a : Nat} {c : Byte} (hs : s.vfb.wf = true)
    (h1 : a < Config.vfbBytes) (h2 : spill = true → a + w < Config.vfbBytes) :
    (orColumn w offset spill a c s).vfb.wf = true := by
  cases spill with
  | false => exact Memory.wf_write _ _ hs h1
  | true => exact Memory.wf_write _ _ (Memory.wf_write _ _ hs h1) (h2 rfl)

theorem orColumns_wf {w offset : Nat} {spill : Bool} {a : Nat} {cs : List Byte} (hs : s.vfb.wf = true)
    (h1 : a + cs.length ≤ Config.vfbBytes) (h2 : spill = true → a + w + cs.length ≤ Config.vfbBytes) :
    (orColumns w offset spill a cs s).vfb.wf = true := by
  induction cs generalizing a s with
  | nil => exact hs
  | cons c cs ih =>
    simp only [List.length_cons] at h1 h2
    refine ih _ (orColumn_wf s hs (by omega) fun h => ?_) (by omega) fun h => ?_
    · have := h2 h
      omega
    · have := h2 h
      omega

/-! The guard and the command frame. -/

/-- The bounds guard answers what the command answers, or stops. -/
theorem touching_next {bound : Nat} {r : Result} {t : State} (h : touching bound r = .next t) :
    bound ≤ Config.vfbBytes ∧ r = .next t := by
  unfold touching at h
  split at h
  · exact ⟨‹_›, h⟩
  · cases h

theorem touching_of_le {bound : Nat} (r : Result) (h : bound ≤ Config.vfbBytes) : touching bound r = r := if_pos h

/-- All a command can do: nothing while halted, its first failing check's fault, or its own effect. -/
theorem runCommand_next {checks : List Check} {effect : State → Result} {t : State}
    (h : runCommand checks s effect = .next t) :
    (s.fault = true ∧ t = s) ∨
    (s.fault = false ∧ ∃ c, firstFailure checks = some c ∧ t = takeFault c s) ∨
    (s.fault = false ∧ firstFailure checks = none ∧ effect s = .next t) := by
  unfold runCommand at h
  split at h
  · rename_i hf
    exact .inl ⟨hf, by cases h; rfl⟩
  · rename_i hf
    have hf : s.fault = false := by simpa using hf
    split at h
    · rename_i c hc
      exact .inr (.inl ⟨hf, c, hc, by cases h; rfl⟩)
    · rename_i hc
      exact .inr (.inr ⟨hf, hc, h⟩)

theorem runCommand_halted {checks : List Check} {effect : State → Result} (h : s.fault = true) :
    runCommand checks s effect = .next s := by
  simp [runCommand, h]

theorem runCommand_fault {checks : List Check} {effect : State → Result} {c : Cause} (h : s.fault = false)
    (hc : firstFailure checks = some c) : runCommand checks s effect = .next (takeFault c s) := by
  simp [runCommand, h, hc]

theorem runCommand_effect {checks : List Check} {effect : State → Result} (h : s.fault = false)
    (hc : firstFailure checks = none) : runCommand checks s effect = effect s := by
  simp [runCommand, h, hc]

/-- No check fails exactly when every check passes. -/
theorem firstFailure_eq_none_iff (checks : List Check) :
    firstFailure checks = none ↔ ∀ c ∈ checks, c.1 = true := by
  induction checks with
  | nil => simp [firstFailure]
  | cons c cs ih =>
    obtain ⟨p, cause⟩ := c
    cases p <;> simp [firstFailure, ih]

@[simp] theorem within_eq_true (lo v hi : Nat) : within lo v hi = true ↔ lo ≤ v ∧ v ≤ hi := by
  simp [within]

end Sys2Proof.Machine
end

