-- ==== Sys2Proof/Laws/Display.lean ====
section
/-! SUPPORT. The laws of the reference display (R52 to R54): a cell after a write, a sequence in two parts, and what one write
run leaves. -/

namespace Sys2Proof.Machine

theorem onDisplay_iff {col page : Nat} :
    onDisplay col page = true ↔ 1 ≤ col ∧ col ≤ 50 ∧ 1 ≤ page ∧ page ≤ 2 := by
  simp only [onDisplay, Bool.and_eq_true, within_eq_true, width_eq, pages_eq]
  tauto

/-- Two places on the display share a cell number only if they are the same place. -/
theorem cellIndex_eq_iff {c p c' p' : Nat} (h : onDisplay c p = true) (h' : onDisplay c' p' = true) :
    cellIndex Config.width c' p' = cellIndex Config.width c p ↔ c' = c ∧ p' = p := by
  rw [onDisplay_iff] at h h'
  simp only [cellIndex, width_eq]
  omega

/-- A cell after one byte is put: that byte in its own cell, the old byte in every other. -/
theorem cellAt_put (d : Display) {c p c' p' : Nat} (b : Byte) (h : onDisplay c p = true)
    (h' : onDisplay c' p' = true) :
    (d.put c p b).cellAt c' p' = if c' = c ∧ p' = p then b else d.cellAt c' p' := by
  simp only [Display.cellAt, Display.put, Memory.find?_write, cellIndex_eq_iff h h']
  split <;> rfl

/-- The cursor is no part of the picture. -/
@[simp] theorem cellAt_withCursor (d : Display) (cursor : Option (Nat × Nat)) (c p : Nat) :
    Display.cellAt { d with cursor := cursor } c p = d.cellAt c p := rfl

/-- Operations in two parts. -/
theorem run_append (d : Display) (a b : List SinkOp) : d.run (a ++ b) = (d.run a).bind fun d' => d'.run b := by
  induction a generalizing d with
  | nil => rfl
  | cons op a ih =>
    simp only [List.cons_append, Display.run]
    cases d.apply op <;> simp [ih]

/-- Everything a run of data writes does from a cursor at (x, p) that has room for it: the bytes replace the cells
`x .. x + length - 1` of page `p`, no other cell changes, and the cursor stands one past the last. -/
theorem run_writeData (bytes : List Byte) (d : Display) (x p : Nat) (hc : d.cursor = some (x, p))
    (h : onDisplay x p = true) (hl : x + bytes.length ≤ 51) :
    ∃ d', d.run (bytes.map .writeData) = some d' ∧
      d'.cursor = (if x + bytes.length ≤ 50 then some (x + bytes.length, p) else none) ∧
      ∀ c' p', onDisplay c' p' = true →
        d'.cellAt c' p' = if p' = p ∧ x ≤ c' ∧ c' < x + bytes.length then bytes.getD (c' - x) 0x00#8
          else d.cellAt c' p' := by
  have hxp := onDisplay_iff.1 h
  induction bytes generalizing d x with
  | nil =>
    refine ⟨d, rfl, by simp [hxp.2.1, hc], fun c' p' _ => ?_⟩
    rw [if_neg (by rintro ⟨_, g, g'⟩; simp only [List.length_nil] at g'; omega)]
  | cons b bytes ih =>
    simp only [List.length_cons] at hl
    simp only [List.map_cons, Display.run, Display.apply, hc, if_pos h]
    by_cases h50 : x < 50
    · have hn : onDisplay (x + 1) p = true := onDisplay_iff.2 (by omega)
      obtain ⟨d', h1, h2, h3⟩ := ih { d.put x p b with cursor := cursorAdvance x p } (x + 1)
        (by simp [cursorAdvance, h50]) hn (by omega) (onDisplay_iff.1 hn)
      refine ⟨d', h1, ?_, fun c' p' hcp => ?_⟩
      · rw [h2]
        simp only [List.length_cons, show x + 1 + bytes.length = x + (bytes.length + 1) by omega]
      · rw [h3 c' p' hcp, cellAt_withCursor, cellAt_put d b h hcp]
        by_cases e : p' = p
        · subst e
          rcases Nat.lt_trichotomy c' x with g | g | g
          · rw [if_neg (by rintro ⟨_, g', _⟩; omega), if_neg (by rintro ⟨g', _⟩; omega),
              if_neg (by rintro ⟨_, g', _⟩; omega)]
          · subst g
            rw [if_neg (by rintro ⟨_, g', _⟩; omega), if_pos ⟨rfl, rfl⟩, if_pos (by simp)]
            simp
          · by_cases g2 : c' < x + 1 + bytes.length
            · rw [if_pos ⟨rfl, g, g2⟩, if_pos ⟨rfl, by omega, by rw [List.length_cons]; omega⟩,
                show c' - x = (c' - (x + 1)) + 1 by omega]
              simp
            · rw [if_neg (by rintro ⟨_, _, g'⟩; omega), if_neg (by rintro ⟨g', _⟩; omega),
                if_neg (by rintro ⟨_, _, g'⟩; rw [List.length_cons] at g'; omega)]
        · simp [e]
    · have hx50 : x = 50 := by omega
      have hb : bytes = [] := List.length_eq_zero_iff.1 (by omega)
      subst hb
      refine ⟨_, rfl, by simp [cursorAdvance, hx50], fun c' p' hcp => ?_⟩
      rw [cellAt_withCursor, cellAt_put d b h hcp]
      by_cases e : c' = x ∧ p' = p
      · rw [if_pos e, if_pos (by simp [e])]
        simp [e]
      · rw [if_neg e, if_neg]
        rintro ⟨g1, g2, g3⟩
        simp only [List.length_cons, List.length_nil] at g3
        exact e ⟨by omega, g1⟩

/-- Everything one write run (R49) does on any display. -/
theorem run_streamRun (bytes : List Byte) (d : Display) (x p : Nat) (h : onDisplay x p = true)
    (hl : x + bytes.length ≤ 51) :
    ∃ d', d.run (streamRun x p bytes) = some d' ∧
      d'.cursor = (if x + bytes.length ≤ 50 then some (x + bytes.length, p) else none) ∧
      ∀ c' p', onDisplay c' p' = true →
        d'.cellAt c' p' = if p' = p ∧ x ≤ c' ∧ c' < x + bytes.length then bytes.getD (c' - x) 0x00#8
          else d.cellAt c' p' := by
  simp only [streamRun, Display.run, Display.apply, if_pos h]
  exact run_writeData bytes { d with cursor := some (x, p) } x p rfl h hl

end Sys2Proof.Machine
end

