-- ==== Sys2Proof/Laws/Latches.lean ====
section
/-! SUPPORT. The small lemmas of the named latches: what the view of R22 gives from the bytes latched. -/

namespace Sys2Proof.Machine

variable {s : State}

/-- With nothing latched, no named latch holds anything. -/
theorem latch_of_nil (h : s.latched = []) (l : Latch) : s.latch l = none := by
  simp [State.latch, h]

theorem latchedColumns_of_nil (h : s.latched = []) : s.latchedColumns = [] := by
  simp [State.latchedColumns, h]

/-- A named latch is the byte at the place its format gives it. -/
theorem latch_of_cons {op : Byte} {bytes : List Byte} (h : s.latched = op :: bytes) (l : Latch) :
    s.latch l = (latchPlace op l).bind fun k => (op :: bytes)[k]? := by
  simp [State.latch, h]

/-- The payload columns by opcode byte. -/
theorem latchedColumns_of_cons {op : Byte} {bytes : List Byte} (h : s.latched = op :: bytes) :
    s.latchedColumns =
      if op = 0x02#8 then (op :: bytes).drop 4 else if op = 0x04#8 then (op :: bytes).drop 5 else [] := by
  simp [State.latchedColumns, h]

end Sys2Proof.Machine
end

