-- ==== Sys2Proof/Laws/Macros.lean ====
section
/-! SUPPORT. Commands one after another, in two parts. -/

namespace Sys2Proof.Machine

/-- Commands in two parts: the second part runs from where the first ends. -/
theorem execAll_append (a b : List Instr) {s t : State} (h : execAll a s = .next t) :
    execAll (a ++ b) s = execAll b t := by
  induction a generalizing s with
  | nil =>
    simp only [execAll] at h
    cases h
    rfl
  | cons i a ih =>
    simp only [List.cons_append, execAll] at h ⊢
    split at h
    · exact ih h
    · cases h
    · cases h

end Sys2Proof.Machine
end

