-- ==== Sys2Proof/Laws/Operands.lean ====
section
/-! SUPPORT. The operand checks of each command as one chain: which cause they raise, or none (R182). -/

namespace Sys2Proof.Machine

theorem placeColumnChecks_failure (x y : Byte) :
    firstFailure (placeColumnChecks x y) =
      if x.toNat < 1 ∨ 50 < x.toNat then some .xRange
      else if y.toNat < 1 ∨ 16 < y.toNat then some .yRange
      else none := by
  simp only [placeColumnChecks, firstFailure, within_eq_true]
  simp only [width_eq, height_eq]
  split_ifs <;> first | rfl | (exfalso; omega)

theorem placeImageChecks_failure (x y n : Byte) :
    firstFailure (placeImageChecks x y n) =
      if x.toNat < 1 ∨ 50 < x.toNat then some .xRange
      else if y.toNat < 1 ∨ 16 < y.toNat then some .yRange
      else if n.toNat < 1 then some .countRange
      else if 50 < x.toNat + n.toNat - 1 then some .extentRange
      else none := by
  simp only [placeImageChecks, firstFailure, within_eq_true, decide_eq_true_eq]
  simp only [width_eq, height_eq]
  split_ifs <;> first | rfl | (exfalso; omega)

theorem clearChecks_failure (size : Byte) :
    firstFailure (clearChecks size) = if 100 < size.toNat then some .sizeRange else none := by
  simp only [clearChecks, firstFailure, decide_eq_true_eq]
  simp only [vfbBytes_eq]
  split_ifs <;> first | rfl | (exfalso; omega)

theorem orPlaceChecks_failure (w n x y : Byte) :
    firstFailure (orPlaceChecks w n x y) =
      if w.toNat < 1 ∨ 50 < w.toNat then some .widthRange
      else if n.toNat < 1 then some .countRange
      else if x.toNat < 1 ∨ w.toNat < x.toNat then some .xRange
      else if y.toNat < 1 ∨ 16 < y.toNat then some .yRange
      else if w.toNat < x.toNat + n.toNat - 1 then some .extentRange
      else none := by
  simp only [orPlaceChecks, firstFailure, within_eq_true, decide_eq_true_eq]
  simp only [width_eq, height_eq]
  split_ifs <;> first | rfl | (exfalso; omega)

theorem flushChecks_failure (w x : Byte) :
    firstFailure (flushChecks w x) =
      if w.toNat < 1 ∨ 50 < w.toNat then some .widthRange
      else if x.toNat < 1 ∨ 50 < x.toNat then some .xRange
      else if 50 < x.toNat + w.toNat - 1 then some .extentRange
      else none := by
  simp only [flushChecks, firstFailure, within_eq_true, decide_eq_true_eq]
  simp only [width_eq]
  split_ifs <;> first | rfl | (exfalso; omega)

end Sys2Proof.Machine
end

