-- ==== Sys2Proof/Laws/PerInstr.lean ====
section
/-! SUPPORT. Statements about every command as syntax, one lemma per constructor. -/

namespace Sys2Proof.Laws

/-- The bytes of a command whose payload is whole are as many as its format says (R61 to R67). -/
def EncodeLength.Statement (i : Instr) : Prop := payloadFits i = true → (encode i).length = formatLength i

theorem EncodeLength.placeColumn (x y col : Byte) : EncodeLength.Statement (.placeColumn x y col) := fun _ => rfl

theorem EncodeLength.placeImage (x y n : Byte) (c : List Byte) : EncodeLength.Statement (.placeImage x y n c) := by
  intro h
  have h : c.length = n.toNat := by simpa [payloadFits] using h
  simp [encode, fixedOperands, payload, formatLength, h]
  omega

theorem EncodeLength.clear (size : Byte) : EncodeLength.Statement (.clear size) := fun _ => rfl

theorem EncodeLength.orPlace (w n x y : Byte) (c : List Byte) : EncodeLength.Statement (.orPlace w n x y c) := by
  intro h
  have h : c.length = n.toNat := by simpa [payloadFits] using h
  simp [encode, fixedOperands, payload, formatLength, h]
  omega

theorem EncodeLength.flush (w x : Byte) : EncodeLength.Statement (.flush w x) := fun _ => rfl

end Sys2Proof.Laws
end

