-- ==== Sys2Proof/Laws/Splitter.lean ====
section
/-! SUPPORT. The small lemmas of the splitter: its bytes as shifts of a byte, bit by bit, and when there is a spill. -/

namespace Sys2Proof.Machine

@[simp] theorem pageOf_eq_fst (y : Nat) : (pageMap y).1 = pageOf y := rfl
@[simp] theorem offsetOf_eq_snd (y : Nat) : (pageMap y).2 = offsetOf y := rfl

/-- The offset is a bit number. -/
theorem offsetOf_lt (y : Nat) : offsetOf y < 8 := by
  simp only [offsetOf, pageMap]
  split <;> simp only <;> omega

/-- The primary byte is the byte shifted left, for every offset. -/
theorem primaryByte_eq_shiftLeft (offset : Nat) (c : Byte) : primaryByte offset c = c <<< offset := by
  by_cases h : offset = 0
  · simp [primaryByte, h]
  · simp only [primaryByte, if_neg h, trunc8]
    apply BitVec.eq_of_toNat_eq
    simp

/-- The spill byte is the byte shifted right. -/
theorem spillByte_eq_shiftRight (offset : Nat) (c : Byte) : spillByte offset c = c >>> (8 - offset) := by
  simp only [spillByte, trunc8]
  apply BitVec.eq_of_toNat_eq
  have h1 : c.toNat >>> (8 - offset) ≤ c.toNat := by
    rw [Nat.shiftRight_eq_div_pow]
    exact Nat.div_le_self _ _
  have h2 := c.isLt
  simp only [BitVec.toNat_ofNat, BitVec.toNat_ushiftRight]
  exact Nat.mod_eq_of_lt (lt_of_le_of_lt h1 h2)

/-- Bit `j` of the primary byte is bit `j - offset` of the column, or 0 above it (R96). -/
theorem primaryByte_bit (offset : Nat) (c : Byte) {j : Nat} (hj : j < 8) :
    (primaryByte offset c).getLsbD j = (decide (offset ≤ j) && c.getLsbD (j - offset)) := by
  rw [primaryByte_eq_shiftLeft, BitVec.getLsbD_shiftLeft]
  by_cases h : offset ≤ j
  · have : ¬ j < offset := by omega
    simp [hj, h, this]
  · have : j < offset := by omega
    simp [h, this]

/-- Bit `j` of the spill byte is bit `j + 8 - offset` of the column (R96). -/
theorem spillByte_bit (offset : Nat) (c : Byte) (j : Nat) :
    (spillByte offset c).getLsbD j = c.getLsbD (8 - offset + j) := by
  rw [spillByte_eq_shiftRight, BitVec.getLsbD_ushiftRight]

/-- An empty column contributes empty bytes. -/
@[simp] theorem primaryByte_zero (offset : Nat) : primaryByte offset 0x00#8 = 0x00#8 := by
  simp [primaryByte_eq_shiftLeft]

@[simp] theorem spillByte_zero (offset : Nat) : spillByte offset 0x00#8 = 0x00#8 := by
  simp [spillByte_eq_shiftRight]

/-- There is a spill exactly when the column passes the bottom of page 1 (R93). -/
theorem hasSpill_eq_true (page offset : Nat) : hasSpill page offset = true ↔ offset ≠ 0 ∧ page ≤ 1 := by
  have h : page + 1 ≤ Config.pages ↔ page ≤ 1 := by
    rw [show Config.pages = 1 + 1 from rfl]
    omega
  simp only [hasSpill, Bool.and_eq_true, decide_eq_true_eq, h]

end Sys2Proof.Machine
end

