-- ==== Sys2Proof/Tests/Slice0.lean ====
section
/-! SUPPORT. The model's own tests: one step each on a small state, with results taken from the spec's vectors (95_test_vectors.md)
or worked out by hand from its tables, and for every statement with hypotheses a concrete state and operands that meet them.
They check; no statement rests on them. -/

namespace Sys2Proof.Tests

open Sys2Proof Sys2Proof.Machine

/-! Helpers. -/

/-- The block after reset with bytes on the command port. -/
def atPort (bytes : List Byte) : State := { State.reset with port := bytes }

/-- The first `k` cells written with one byte: a stand-in for their unspecified contents. -/
def cellsOf (k : Nat) (b : Byte) : Memory := (List.range k).map fun i => (i, b)

/-- The block after reset with the first `k` cells holding 0x5A, and bytes on the port. -/
def withCells (k : Nat) (bytes : List Byte) : State := { atPort bytes with vfb := cellsOf k 0x5A#8 }

/-- The block halted by a fault. -/
def haltedState : State := { atPort [0x03#8, 0x10#8] with fault := true, cause := 0x01#8, position := 1 }

/-- What a state a result leads to satisfies; false where it stops. -/
def next? (r : Result) (p : State → Bool) : Bool :=
  match r with
  | .next t => p t
  | .fault _ => false
  | .refused _ => false

theorem answers {r : Result} {t : State} (h : next? r (fun t' => decide (t' = t)) = true) : r = .next t := by
  cases r with
  | next s => exact congrArg _ (of_decide_eq_true h)
  | fault e => cases h
  | refused e => cases h

/-! WellFormed: one ill-formed term for each check of R182, and for the payload length; each is refused. -/

theorem test_wf_column_x0 : wellFormed (.placeColumn 0x00#8 0x04#8 0xFF#8) = false := by decide
theorem test_wf_column_x51 : wellFormed (.placeColumn 0x33#8 0x04#8 0xFF#8) = false := by decide
theorem test_wf_column_y0 : wellFormed (.placeColumn 0x03#8 0x00#8 0xFF#8) = false := by decide
theorem test_wf_column_y17 : wellFormed (.placeColumn 0x03#8 0x11#8 0xFF#8) = false := by decide
theorem test_wf_image_x : wellFormed (.placeImage 0x00#8 0x06#8 0x01#8 [0xFF#8]) = false := by decide
theorem test_wf_image_y : wellFormed (.placeImage 0x0A#8 0x11#8 0x01#8 [0xFF#8]) = false := by decide
theorem test_wf_image_n : wellFormed (.placeImage 0x0A#8 0x06#8 0x00#8 []) = false := by decide
theorem test_wf_image_extent : wellFormed (.placeImage 0x32#8 0x08#8 0x02#8 [0xFF#8, 0xFF#8]) = false := by decide
theorem test_wf_image_payload : wellFormed (.placeImage 0x0A#8 0x06#8 0x02#8 [0xFF#8]) = false := by decide
theorem test_wf_clear_size : wellFormed (.clear 0x65#8) = false := by decide
theorem test_wf_or_w0 : wellFormed (.orPlace 0x00#8 0x01#8 0x01#8 0x01#8 [0xFF#8]) = false := by decide
theorem test_wf_or_w51 : wellFormed (.orPlace 0x33#8 0x01#8 0x01#8 0x01#8 [0xFF#8]) = false := by decide
theorem test_wf_or_n : wellFormed (.orPlace 0x08#8 0x00#8 0x01#8 0x01#8 []) = false := by decide
theorem test_wf_or_x : wellFormed (.orPlace 0x08#8 0x01#8 0x09#8 0x01#8 [0xFF#8]) = false := by decide
theorem test_wf_or_y : wellFormed (.orPlace 0x08#8 0x01#8 0x01#8 0x11#8 [0xFF#8]) = false := by decide
theorem test_wf_or_extent : wellFormed (.orPlace 0x08#8 0x02#8 0x08#8 0x01#8 [0xFF#8, 0xFF#8]) = false := by decide
theorem test_wf_or_payload : wellFormed (.orPlace 0x08#8 0x01#8 0x01#8 0x01#8 [0xFF#8, 0xFF#8]) = false := by decide
theorem test_wf_flush_w : wellFormed (.flush 0x33#8 0x01#8) = false := by decide
theorem test_wf_flush_x : wellFormed (.flush 0x08#8 0x33#8) = false := by decide
theorem test_wf_flush_extent : wellFormed (.flush 0x08#8 0x2C#8) = false := by decide

/-- The largest operands of every command are in range. -/
theorem test_wf_corners :
    wellFormed (.placeColumn 0x32#8 0x10#8 0xFF#8) = true ∧ wellFormed (.placeImage 0x32#8 0x09#8 0x01#8 [0xAA#8]) = true ∧
    wellFormed (.clear 0x00#8) = true ∧ wellFormed (.clear 0x64#8) = true ∧
    wellFormed (.orPlace 0x32#8 0x01#8 0x32#8 0x10#8 [0x01#8]) = true ∧ wellFormed (.flush 0x32#8 0x01#8) = true := by
  decide

/-! Decoding: the words of R62 to R66 written out bit by bit, and the streams of V-DEC. -/

/-- Format C (R62): `00000001 xxxxxxxx yyyyyyyy cccccccc`, x = 3, y = 4, col = 10110111. -/
theorem test_decode_placeColumn :
    decode [0b00000001#8, 0b00000011#8, 0b00000100#8, 0b10110111#8] = .command (.placeColumn 3#8 4#8 183#8) [] := by
  decide

/-- Format I (R63): `00000010 x y n` and n payload bytes. -/
theorem test_decode_placeImage :
    decode [0b00000010#8, 0b00001010#8, 0b00000110#8, 0b00000010#8, 0b11111111#8, 0b10000001#8, 0b00000011#8] =
      .command (.placeImage 10#8 6#8 2#8 [255#8, 129#8]) [3#8] := by
  decide

/-- Format S (R64): `00000011 ssssssss`. -/
theorem test_decode_clear : decode [0b00000011#8, 0b00010000#8] = .command (.clear 16#8) [] := by decide

/-- Format B (R65): `00000100 W n x y` and n payload bytes; the example of R75. -/
theorem test_decode_orPlace :
    decode [0b00000100#8, 0b00001000#8, 0b00000010#8, 0b00000011#8, 0b00000110#8, 0b11111111#8, 0b10000001#8] =
      .command (.orPlace 8#8 2#8 3#8 6#8 [255#8, 129#8]) [] := by
  decide

/-- Format F (R66): `00000101 W x`. -/
theorem test_decode_flush : decode [0b00000101#8, 0b00001000#8, 0b00001010#8] = .command (.flush 8#8 10#8) [] := by
  decide

/-- Reserved opcodes at both ends of their ranges, and one with bit 7 set over a legal low part (R69, R70). -/
theorem test_decode_reserved :
    decode [0x00#8] = .rejected .illegalOpcode none [] ∧ decode [0x06#8] = .rejected .illegalOpcode none [] ∧
    decode [0xFF#8, 0x01#8, 0x02#8] = .rejected .illegalOpcode none [0x01#8, 0x02#8] ∧
    decode [0x81#8, 0x03#8] = .rejected .illegalOpcode none [0x03#8] := by
  decide

/-- V-DEC: four bytes of an OR_PLACE header are incomplete although x is out of range; the fifth raises the fault. -/
theorem test_decode_header :
    decode [0x04#8, 0x08#8, 0x03#8, 0x09#8] = .incomplete ∧
    decode [0x04#8, 0x08#8, 0x03#8, 0x09#8, 0x01#8] =
      .rejected .xRange (some (.orPlace 0x08#8 0x03#8 0x09#8 0x01#8 [])) [] ∧ decode [0x01#8, 0x03#8] = .incomplete := by
  decide

/-- V-DEC: two FLUSH commands back to back. -/
theorem test_decode_back_to_back :
    decode [0x05#8, 0x02#8, 0x01#8, 0x05#8, 0x02#8, 0x01#8] = .command (.flush 2#8 1#8) [0x05#8, 0x02#8, 0x01#8] := by
  decide

/-- A table word: its low byte is the first byte of the stream. -/
theorem test_decodeTableWord :
    decodeTableWord 32 0xB7040301 = some (.placeColumn 3#8 4#8 183#8) ∧ decodeTableWord 16 0x1003 = some (.clear 16#8) ∧
    decodeTableWord 8 0x02 = some (.placeImage 0#8 0#8 0#8 []) ∧ decodeTableWord 8 0x06 = none := by
  decide

/-- The placed word is the command the next step takes. -/
theorem test_withFetchWord :
    next? (step (State.reset.withFetchWord 24 0x2B0805)) (fun t => decide (t.emitted.length = 18)) = true := by
  decide

/-- R75: the assembler's text of a command. -/
theorem test_asm : asm (.orPlace 8#8 2#8 3#8 6#8 [255#8, 129#8]) = "OR_PLACE 8, 2, 3, 6, [255 129]" := by decide

/-! The splitter (V-PM, V-SP). -/

theorem test_pageMap :
    pageMap 1 = (1, 0) ∧ pageMap 8 = (1, 7) ∧ pageMap 9 = (2, 0) ∧ pageMap 16 = (2, 7) ∧ pageMap 0 = (0, 7) ∧
    pageMap 17 = (3, 0) ∧ pageMap 255 = (32, 6) := by
  decide

theorem test_split :
    split 1 0xA5#8 = [(1, 0xA5#8)] ∧ split 2 0x01#8 = [(1, 0x02#8), (2, 0x00#8)] ∧
    split 4 0xB7#8 = [(1, 0xB8#8), (2, 0x05#8)] ∧ split 8 0xFE#8 = [(1, 0x00#8), (2, 0x7F#8)] ∧
    split 9 0x3C#8 = [(2, 0x3C#8)] ∧ split 16 0xFE#8 = [(2, 0x00#8)] := by
  decide

/-! One step per command: at most two tests each. -/

/-- V-PC `01 07 08 81`. -/
theorem test_placeColumn_two_pages :
    next? (step (atPort [0x01#8, 0x07#8, 0x08#8, 0x81#8])) (fun t => decide (t.fault = false) &&
      decide (t.emitted = [.writePixelAt 7 1 0x80#8, .writePixelAt 7 2 0x40#8]) && decide (t.position = 4)) = true := by
  decide

/-- V-PC `01 00 00 FF`: x is checked before y. -/
theorem test_placeColumn_fault :
    next? (step (atPort [0x01#8, 0x00#8, 0x00#8, 0xFF#8])) (fun t =>
      t.fault && decide (t.cause = 0x02#8) && decide (t.emitted = [])) = true := by
  decide

/-- V-PI `02 31 02 02 80 7F`. -/
theorem test_placeImage_two_runs :
    next? (step (atPort [0x02#8, 0x31#8, 0x02#8, 0x02#8, 0x80#8, 0x7F#8])) (fun t => decide (t.emitted =
      [.setCursor 49 1, .writeData 0x00#8, .writeData 0xFE#8, .setCursor 49 2, .writeData 0x01#8, .writeData 0x00#8])) =
      true := by
  decide

/-- V-PI `02 32 08 02 ...`: the payload is not consumed. -/
theorem test_placeImage_fault :
    next? (step (atPort [0x02#8, 0x32#8, 0x08#8, 0x02#8, 0xFF#8, 0xFF#8])) (fun t =>
      decide (t.cause = 0x07#8) && decide (t.emitted = []) && decide (t.port = [0xFF#8, 0xFF#8]) &&
        decide (t.position = 4)) = true := by
  decide

/-- V-CL `03 02`: the cells below `size` and no other. -/
theorem test_clear_two :
    next? (step (withCells 4 [0x03#8, 0x02#8])) (fun t => decide
      (t.vfb = [(0, 0x00#8), (1, 0x00#8), (2, 0x5A#8), (3, 0x5A#8)])) = true := by
  decide

/-- V-CL `03 65`. -/
theorem test_clear_fault :
    next? (step (withCells 2 [0x03#8, 0x65#8])) (fun t =>
      decide (t.cause = 0x06#8) && decide (t.vfb = cellsOf 2 0x5A#8)) = true := by
  decide

/-- V-OR, without a clear: 5A | E0 = FA in cell 1, 5A | 1F = 5F in cell 9. -/
theorem test_orPlace_onto_content :
    next? (step (withCells 16 [0x04#8, 0x08#8, 0x01#8, 0x02#8, 0x06#8, 0xFF#8])) (fun t => decide
      (t.vfb = ((cellsOf 16 0x5A#8).write 1 0xFA#8).write 9 0x5F#8)) = true := by
  decide

/-- V-OR `04 08 03 09 11`: x is checked before y and the extent. -/
theorem test_orPlace_fault :
    next? (step (withCells 2 [0x04#8, 0x08#8, 0x03#8, 0x09#8, 0x11#8, 0xFF#8])) (fun t =>
      decide (t.cause = 0x02#8) && decide (t.port = [0xFF#8]) && decide (t.vfb = cellsOf 2 0x5A#8)) = true := by
  decide

/-- V-FL, `W = 2` at columns 49..50. -/
theorem test_flush_two :
    next? (step { atPort [0x05#8, 0x02#8, 0x31#8] with
        vfb := [(0, 0xF0#8), (1, 0x00#8), (2, 0x0F#8), (3, 0x00#8)] }) (fun t => decide (t.emitted =
      [.setCursor 49 1, .writeData 0xF0#8, .writeData 0x00#8, .setCursor 49 2, .writeData 0x0F#8, .writeData 0x00#8])) =
      true := by
  decide

/-- V-FL `05 08 2C`. -/
theorem test_flush_fault :
    next? (step (atPort [0x05#8, 0x08#8, 0x2C#8])) (fun t =>
      decide (t.cause = 0x07#8) && decide (t.emitted = [])) = true := by
  decide

/-! The latches (R22), the halt and reset. -/

/-- Four bytes of an OR_PLACE header wait in their latches; y has not arrived. -/
theorem test_latches :
    next? (step (atPort [0x04#8, 0x08#8, 0x03#8, 0x09#8])) (fun t =>
      decide (t.latch .w = some 0x08#8) && decide (t.latch .n = some 0x03#8) && decide (t.latch .x = some 0x09#8) &&
      decide (t.latch .y = none) && waiting t) = true := by
  decide

/-- R62, R64, R66: the last fixed byte of the short formats in its latch. -/
theorem test_latches_last :
    State.latch { State.reset with latched := [0x01#8, 0x03#8, 0x04#8, 0xB7#8] } .col = some 0xB7#8 ∧
    State.latch { State.reset with latched := [0x03#8, 0x10#8] } .size = some 0x10#8 ∧
    State.latch { State.reset with latched := [0x05#8, 0x08#8, 0x0A#8] } .x = some 0x0A#8 := by
  decide

/-- The payload columns that have arrived. -/
theorem test_latchedColumns :
    State.latchedColumns { State.reset with latched := [0x02#8, 0x0A#8, 0x06#8, 0x03#8, 0xFF#8, 0x81#8] } =
      [0xFF#8, 0x81#8] := by
  decide

/-- Halted: a CLEAR is discarded, not run, and the first cause is kept. -/
theorem test_halted :
    next? (step haltedState) (fun t => t.fault && decide (t.cause = 0x01#8) && decide (t.port = []) &&
      decide (t.vfb = []) && faulted t) = true := by
  decide

/-- Reset leaves the halted state; the bytes on the port are lost. -/
theorem test_reset :
    next? (step haltedState.requestReset) (fun t => !t.fault && decide (t.cause = 0x00#8) && decide (t.port = []) &&
      decide (t.position = 0)) = true := by
  decide

/-- A safe run: CLEAR 2 and FLUSH 1, 50 in three steps (the third waits for the next command). -/
theorem test_safeRun : safeRun 3 (atPort [0x03#8, 0x02#8, 0x05#8, 0x01#8, 0x32#8]) = true := by decide

/-! The display and the pseudo-instructions. -/

/-- R54: a data write replaces the cell and moves the cursor on; a pixel write leaves the cursor unset. -/
theorem test_display :
    blankDisplay.run [.setCursor 50 2, .writeData 0x0F#8] = some ⟨[(99, 0x0F#8)], none⟩ ∧
    blankDisplay.run [.setCursor 1 1, .writeData 0x01#8, .writeData 0x02#8] =
      some ⟨[(0, 0x01#8), (1, 0x02#8)], some (3, 1)⟩ ∧
    blankDisplay.run [.setCursor 1 1, .writePixelAt 1 1 0x01#8, .writeData 0x02#8] = none := by
  decide

/-- The reel of V-REEL. -/
def testReel : Reel where
  columns := 4
  table := [[0x18#8, 0x24#8, 0x42#8, 0x81#8], [0xFF#8, 0xA5#8, 0x81#8, 0xF0#8], [0xFF#8, 0x81#8, 0xBD#8, 0xFF#8],
    [0x03#8, 0x0C#8, 0x30#8, 0xC3#8], [0x55#8, 0xAA#8, 0x55#8, 0xAA#8], [0x0F#8, 0x0F#8, 0xF0#8, 0xF0#8],
    [0x80#8, 0xC0#8, 0xE0#8, 0xF0#8]]

/-- V-REEL, pos = 21: rows 6, 1 and 15, the previous image shifted by 4. -/
theorem test_reelDraw_21 :
    testReel.draw 4#8 1#8 21 =
      [.orPlace 4#8 4#8 1#8 6#8 [0xFF#8, 0x81#8, 0xBD#8, 0xFF#8], .orPlace 4#8 4#8 1#8 1#8 [0x0F#8, 0x0A#8, 0x08#8, 0x0F#8],
       .orPlace 4#8 4#8 1#8 15#8 [0x03#8, 0x0C#8, 0x30#8, 0xC3#8]] := by
  decide

/-- V-REEL, pos = 0 and pos = 62: the strip is circular. -/
theorem test_reelDraw_wraps :
    testReel.draw 4#8 1#8 0 =
      [.orPlace 4#8 4#8 1#8 9#8 [0x18#8, 0x24#8, 0x42#8, 0x81#8], .orPlace 4#8 4#8 1#8 1#8 [0x40#8, 0x60#8, 0x70#8, 0x78#8]] ∧
    testReel.draw 4#8 1#8 62 =
      [.orPlace 4#8 4#8 1#8 1#8 [0x80#8, 0xC0#8, 0xE0#8, 0xF0#8], .orPlace 4#8 4#8 1#8 10#8 [0x18#8, 0x24#8, 0x42#8, 0x81#8]] := by
  decide

/-- S4, with N = 7 and with the default N = 12. -/
theorem test_rollStep :
    rollStep 7 61 = 62 ∧ rollStep 7 62 = 0 ∧ rollStep 7 0 = 1 ∧ rollStep Config.reelImages 107 = 0 := by
  decide

/-- R76: the expansions of OR_COLUMN and DRAW_CYCLE. -/
theorem test_macros :
    drawCycle 8#8 10#8 [orColumnMacro 8#8 1#8 1#8 0xA5#8] =
      [.clear 16#8, .orPlace 8#8 1#8 1#8 1#8 [0xA5#8], .flush 8#8 10#8] := by
  decide

/-! Witnesses: for every statement with hypotheses, a concrete state and operands that meet them all. Where a statement has
several clauses over one operand, one for each clause, at the ends of its range. -/

theorem test_witness_EncodedCommandDecodesToItself :
    wellFormed (.orPlace 0x32#8 0x01#8 0x32#8 0x10#8 [0x01#8]) = true ∧
    wellFormed (.placeImage 0x0A#8 0x06#8 0x02#8 [0xFF#8, 0x81#8]) = true := by
  decide

theorem test_witness_DecoderAnswersExactlyOneResult :
    decode [0x03#8, 0x10#8, 0x05#8] = .command (.clear 0x10#8) [0x05#8] ∧ wellFormed (.clear 0x10#8) = true ∧
    decode [0x00#8] = .rejected .illegalOpcode none [] ∧ decode [0x03#8, 0x65#8] = .rejected .sizeRange (some (.clear 0x65#8)) [] ∧
    decode [0x03#8] = .incomplete := by
  decide

theorem test_witness_BadHeaderRejectedBeforePayload :
    operandFault (.orPlace 0x08#8 0x03#8 0x09#8 0x11#8 []) = some .xRange ∧
    payload (.orPlace 0x08#8 0x03#8 0x09#8 0x11#8 []) = [] := by
  decide

theorem test_witness_CommandCutShortIsIncomplete :
    wellFormed (.placeImage 0x0A#8 0x06#8 0x02#8 [0xFF#8, 0x81#8]) = true ∧
    5 < formatLength (.placeImage 0x0A#8 0x06#8 0x02#8 [0xFF#8, 0x81#8]) ∧
    0 < formatLength (.placeImage 0x0A#8 0x06#8 0x02#8 [0xFF#8, 0x81#8]) ∧
    2 < headerLength (.flush 0x00#8 0x00#8) := by
  decide

theorem test_witness_ReservedOpcodeFaultsAtOnce :
    atBoundary (atPort [0x00#8]) = true ∧ (atPort [0x00#8]).port = 0x00#8 :: [] ∧ (0x00#8 : Byte).toNat = 0 ∧
    (6 ≤ (0x06#8 : Byte).toNat ∧ (0x06#8 : Byte).toNat ≤ 255) ∧ (6 ≤ (0xFF#8 : Byte).toNat ∧ (0xFF#8 : Byte).toNat ≤ 255) := by
  decide

theorem test_witness_StepRunsTheDecodedCommand :
    ready { atPort [0x10#8, 0x05#8] with latched := [0x03#8] } = true ∧
    decode ([0x03#8] ++ [0x10#8, 0x05#8]) = .command (.clear 0x10#8) [0x05#8] := by
  decide

theorem test_witness_StepOnACommandsBytesAdvancesByItsLength :
    atBoundary (atPort [0x05#8, 0x08#8, 0x0A#8, 0x03#8]) = true ∧ wellFormed (.flush 0x08#8 0x0A#8) = true ∧
    (atPort [0x05#8, 0x08#8, 0x0A#8, 0x03#8]).port = encode (.flush 0x08#8 0x0A#8) ++ [0x03#8] := by
  decide

theorem test_witness_IncompleteCommandWaits :
    ready (atPort [0x01#8, 0x03#8]) = true ∧ decode ((atPort [0x01#8, 0x03#8]).latched ++ (atPort [0x01#8, 0x03#8]).port) = .incomplete ∧
    (atPort [0x01#8, 0x03#8]).latched ++ (atPort [0x01#8, 0x03#8]).port ≠ [] := by
  decide

theorem test_witness_DeliveryInPiecesGivesTheSameAnswer :
    ready (atPort [0x03#8]) = true ∧ decode ((atPort [0x03#8]).latched ++ (atPort [0x03#8]).port) = .incomplete ∧
    step (atPort [0x03#8]) = .next (atPort [0x03#8]).latchPort :=
  ⟨by decide, by decide, answers (by decide)⟩

theorem test_witness_EveryByteIsConsumedOnceInOrder :
    legal (atPort [0x03#8, 0x00#8]) = true ∧ (atPort [0x03#8, 0x00#8]).resetPending = false ∧
    step (atPort [0x03#8, 0x00#8]) = .next { State.reset with position := 2 } :=
  ⟨by decide, by decide, answers (by decide)⟩

/-- Each clause: a state for each format with its last fixed byte latched (and two columns in formats I and B), one with
nothing latched, a step that waits with the last byte of an OR_PLACE missing, and a step that completes. -/
theorem test_witness_LatchesHoldOnlyTheCommandInProgress :
    (State.latched { State.reset with latched := [0x01#8, 0x03#8, 0x04#8, 0xB7#8] })[0]? = some 0x01#8 ∧
    (State.latched { State.reset with latched := [0x02#8, 0x0A#8, 0x06#8, 0x03#8, 0xFF#8, 0x81#8] })[0]? = some 0x02#8 ∧
    (State.latched { State.reset with latched := [0x03#8, 0x10#8] })[0]? = some 0x03#8 ∧
    (State.latched { State.reset with latched := [0x04#8, 0x08#8, 0x03#8, 0x02#8, 0x06#8, 0xFF#8, 0x81#8] })[0]? = some 0x04#8 ∧
    (State.latched { State.reset with latched := [0x05#8, 0x08#8, 0x0A#8] })[0]? = some 0x05#8 ∧ State.reset.latched = [] ∧
    ready (atPort [0x04#8, 0x08#8, 0x02#8, 0x03#8, 0x06#8, 0xFF#8]) = true ∧
    step (atPort [0x04#8, 0x08#8, 0x02#8, 0x03#8, 0x06#8, 0xFF#8]) = .next
      { State.reset with latched := [0x04#8, 0x08#8, 0x02#8, 0x03#8, 0x06#8, 0xFF#8], position := 6 } ∧
    decode ([] ++ [0x04#8, 0x08#8, 0x02#8, 0x03#8, 0x06#8, 0xFF#8]) = .incomplete ∧ ready (atPort [0x03#8, 0x00#8]) = true ∧
    step (atPort [0x03#8, 0x00#8]) = .next { State.reset with position := 2 } ∧ decode ([] ++ [0x03#8, 0x00#8]) ≠ .incomplete :=
  ⟨by decide, by decide, by decide, by decide, by decide, by decide, by decide, answers (by decide), by decide, by decide,
    answers (by decide), by decide⟩

/-- The page map at the ends of its pages, and the splitter's clauses at the ends of their ranges of y and offset. -/
theorem test_witness_PageMap_and_split :
    1 ≤ 1 ∧ pageMap 1 = (1, 0) ∧ pageMap 8 = (1, 7) ∧ pageMap 9 = (2, 0) ∧
    (1 ≤ 7 ∧ 7 ≤ 7 ∧ (primaryByte 7 0xFF#8).toNat + 256 * (spillByte 7 0xFF#8).toNat = 255 * 128) ∧
    split 2 0x80#8 = [(1, 0x00#8), (2, 0x01#8)] ∧ split 8 0x01#8 = [(1, 0x80#8), (2, 0x00#8)] ∧
    split 10 0xFF#8 = [(2, 0xFE#8)] ∧ split 16 0xFF#8 = [(2, 0x80#8)] := by
  decide

/-- The row of a column's last visible bit, and a row the column does not reach. -/
theorem test_witness_ContributionsPaintTheColumnsRows :
    (1 ≤ 9 ∧ 9 ≤ 16 ∧ 1 ≤ 16 ∧ 16 ≤ 16 ∧ (2, 0x80#8) ∈ split 9 0x80#8 ∧ (0x80#8 : Byte).getLsbD 7 = true) ∧
    (1 ≤ 16 ∧ 16 ≤ 16 ∧ 1 ≤ 1 ∧ 1 ≤ 16 ∧ ¬ (16 ≤ 1)) := by
  decide

/-- In range, at the first and last rows of each clause (1, 9; 2, 8; 10, 16). -/
theorem test_witness_PlaceColumnEmitsItsContributions :
    State.reset.fault = false ∧ 1 ≤ (0x32#8 : Byte).toNat ∧ (0x32#8 : Byte).toNat ≤ 50 ∧
    ∀ y ∈ [0x01#8, 0x09#8, 0x02#8, 0x08#8, 0x0A#8, (0x10#8 : Byte)], 1 ≤ y.toNat ∧ y.toNat ≤ 16 := by
  decide

/-- One stream for each clause: x = 0, x = 51, y = 0, y = 17, and in range at x = 50, y = 16. -/
theorem test_witness_PlaceColumnFollowsItsRule :
    atBoundary (atPort [0x01#8, 0x00#8, 0x04#8, 0xFF#8]) = true ∧ atBoundary (atPort [0x01#8, 0x33#8, 0x04#8, 0xFF#8]) = true ∧
    atBoundary (atPort [0x01#8, 0x03#8, 0x00#8, 0xFF#8]) = true ∧ atBoundary (atPort [0x01#8, 0x03#8, 0x11#8, 0xFF#8]) = true ∧
    atBoundary (atPort [0x01#8, 0x32#8, 0x10#8, 0xFF#8]) = true ∧
    (atPort [0x01#8, 0x32#8, 0x10#8, 0xFF#8]).port = 0x01#8 :: 0x32#8 :: 0x10#8 :: 0xFF#8 :: [] := by
  decide

theorem test_witness_PlaceImageStreamsItsPages :
    State.reset.fault = false ∧ [0xFF#8, 0x81#8].length = (0x02#8 : Byte).toNat ∧ 1 ≤ (0x31#8 : Byte).toNat ∧
    (0x31#8 : Byte).toNat ≤ 50 ∧ (∀ y ∈ [0x01#8, 0x09#8, 0x02#8, 0x08#8, 0x0A#8, (0x10#8 : Byte)], 1 ≤ y.toNat ∧ y.toNat ≤ 16) ∧
    1 ≤ (0x02#8 : Byte).toNat ∧ (0x31#8 : Byte).toNat + (0x02#8 : Byte).toNat ≤ 51 := by
  decide

/-- One stream for each clause: x = 51, y = 17, n = 0, extent 51, two payload bytes short of two, and whole. -/
theorem test_witness_PlaceImageFollowsItsRule :
    (atPort [0x02#8, 0x33#8, 0x00#8, 0x00#8]).port = 0x02#8 :: 0x33#8 :: 0x00#8 :: 0x00#8 :: [] ∧
    atBoundary (atPort [0x02#8, 0x33#8, 0x00#8, 0x00#8]) = true ∧ atBoundary (atPort [0x02#8, 0x0A#8, 0x11#8, 0x01#8]) = true ∧
    atBoundary (atPort [0x02#8, 0x0A#8, 0x06#8, 0x00#8]) = true ∧ atBoundary (atPort [0x02#8, 0x32#8, 0x08#8, 0x02#8]) = true ∧
    (atBoundary (atPort [0x02#8, 0x0A#8, 0x06#8, 0x02#8, 0xFF#8]) = true ∧ [0xFF#8].length < (0x02#8 : Byte).toNat) ∧
    (atBoundary (atPort [0x02#8, 0x0A#8, 0x06#8, 0x02#8, 0xFF#8, 0x81#8]) = true ∧ ¬ [0xFF#8, 0x81#8].length < (0x02#8 : Byte).toNat) := by
  decide

theorem test_witness_DirectPlacementNeverReachesTheBuffer :
    exec (.placeColumn 0x01#8 0x01#8 0xA5#8) State.reset =
      .next { State.reset with emitted := [.writePixelAt 1 1 0xA5#8] } ∧
    exec (.placeImage 0x32#8 0x09#8 0x01#8 [0xAA#8]) State.reset =
      .next { State.reset with emitted := [.setCursor 50 2, .writeData 0xAA#8] } :=
  ⟨answers (by decide), answers (by decide)⟩

theorem test_witness_ClearZeroesItsCells :
    State.reset.fault = false ∧ (0x00#8 : Byte).toNat ≤ 100 ∧ (0x64#8 : Byte).toNat ≤ 100 := by
  decide

/-- One stream for each clause: size 101, and sizes 0 and 100. -/
theorem test_witness_ClearFollowsItsRule :
    (atBoundary (atPort [0x03#8, 0x65#8]) = true ∧ (atPort [0x03#8, 0x65#8]).port = 0x03#8 :: 0x65#8 :: []) ∧
    atBoundary (atPort [0x03#8, 0x00#8]) = true ∧ atBoundary (atPort [0x03#8, 0x64#8]) = true := by
  decide

/-- In range at the last column of a full buffer; a pixel of the sprite, a pixel beside it, a cell beyond the buffer. -/
theorem test_witness_OrPlaceOrsItsPixels :
    State.reset.fault = false ∧ [0xFF#8].length = (0x01#8 : Byte).toNat ∧ 1 ≤ (0x08#8 : Byte).toNat ∧ (0x08#8 : Byte).toNat ≤ 50 ∧
    1 ≤ (0x01#8 : Byte).toNat ∧ 1 ≤ (0x09#8 : Byte).toNat ∧ (0x09#8 : Byte).toNat ≤ 16 ∧
    (0x08#8 : Byte).toNat + (0x01#8 : Byte).toNat - 1 ≤ (0x08#8 : Byte).toNat ∧
    (0 < (0x01#8 : Byte).toNat ∧ 7 ≤ 7 ∧ (0x09#8 : Byte).toNat + 7 ≤ 16) ∧
    ¬ ((0x08#8 : Byte).toNat ≤ 7 ∧ 7 < (0x08#8 : Byte).toNat + (0x01#8 : Byte).toNat) ∧ 2 * (0x08#8 : Byte).toNat ≤ 16 := by
  decide

/-- One stream for each clause: W = 51, n = 0, x = W + 1, y = 17, the extent, a payload byte short, and whole. -/
theorem test_witness_OrPlaceFollowsItsRule :
    (atPort [0x04#8, 0x33#8, 0x01#8, 0x01#8, 0x01#8]).port = 0x04#8 :: 0x33#8 :: 0x01#8 :: 0x01#8 :: 0x01#8 :: [] ∧
    atBoundary (atPort [0x04#8, 0x33#8, 0x01#8, 0x01#8, 0x01#8]) = true ∧
    atBoundary (atPort [0x04#8, 0x08#8, 0x00#8, 0x01#8, 0x01#8]) = true ∧
    atBoundary (atPort [0x04#8, 0x08#8, 0x01#8, 0x09#8, 0x01#8]) = true ∧
    atBoundary (atPort [0x04#8, 0x08#8, 0x01#8, 0x01#8, 0x11#8]) = true ∧
    atBoundary (atPort [0x04#8, 0x08#8, 0x02#8, 0x08#8, 0x01#8]) = true ∧
    (atBoundary (atPort [0x04#8, 0x08#8, 0x02#8, 0x03#8, 0x06#8, 0xFF#8]) = true ∧ [0xFF#8].length < (0x02#8 : Byte).toNat) ∧
    (atBoundary (atPort [0x04#8, 0x08#8, 0x02#8, 0x03#8, 0x06#8, 0xFF#8, 0x81#8]) = true ∧
      2 ≤ (0x06#8 : Byte).toNat ∧ (0x06#8 : Byte).toNat ≤ 8) := by
  decide

/-- All four clauses: a zero buffer, one command, two commands of different widths, and a CLEAR that clears a bit. -/
theorem test_witness_OrPlaceAlgebra :
    wellFormed (.orPlace 0x08#8 0x01#8 0x02#8 0x03#8 [0x0F#8]) = true ∧
    orPlaceOfWidth 0x08#8 (.orPlace 0x08#8 0x01#8 0x02#8 0x03#8 [0x0F#8]) = true ∧
    wellFormed (.orPlace 0x04#8 0x01#8 0x02#8 0x01#8 [0x0F#8]) = true ∧
    orPlaceOfWidth 0x04#8 (.orPlace 0x04#8 0x01#8 0x02#8 0x01#8 [0x0F#8]) = true ∧
    (∀ a, a < 100 → State.cell { State.reset with vfb := cellsOf 100 0x00#8 } a = 0x00#8) ∧
    exec (.clear 0x01#8) (withCells 1 []) = .next { State.reset with vfb := [(0, 0x00#8)] } ∧
    ((withCells 1 []).cell 0).getLsbD 1 = true ∧
    (State.cell { State.reset with vfb := [(0, 0x00#8)] } 0).getLsbD 1 = false :=
  ⟨by decide, by decide, by decide, by decide, by decide, answers (by decide), by decide, by decide⟩

theorem test_witness_FlushStreamsBothPages :
    State.reset.fault = false ∧ 1 ≤ (0x08#8 : Byte).toNat ∧ (0x08#8 : Byte).toNat ≤ 50 ∧ 1 ≤ (0x2B#8 : Byte).toNat ∧
    (0x2B#8 : Byte).toNat ≤ 50 ∧ (0x2B#8 : Byte).toNat + (0x08#8 : Byte).toNat - 1 ≤ 50 := by
  decide

/-- One stream for each clause: W = 0 and 51, x = 0 and 51, extent 51, and in range up to column 50. -/
theorem test_witness_FlushFollowsItsRule :
    (atPort [0x05#8, 0x00#8, 0x01#8]).port = 0x05#8 :: 0x00#8 :: 0x01#8 :: [] ∧
    atBoundary (atPort [0x05#8, 0x00#8, 0x01#8]) = true ∧ atBoundary (atPort [0x05#8, 0x33#8, 0x01#8]) = true ∧
    atBoundary (atPort [0x05#8, 0x08#8, 0x00#8]) = true ∧ atBoundary (atPort [0x05#8, 0x08#8, 0x33#8]) = true ∧
    atBoundary (atPort [0x05#8, 0x08#8, 0x2C#8]) = true ∧ atBoundary (atPort [0x05#8, 0x08#8, 0x2B#8]) = true := by
  decide

/-- A command that completes and one that faults; neither writes VFB, or emits. -/
theorem test_witness_CommandsLeaveEverythingElse :
    (exec (.flush 0x01#8 0x32#8) (withCells 2 []) = .next { withCells 2 [] with
        emitted := [.setCursor 50 1, .writeData 0x5A#8, .setCursor 50 2, .writeData 0x5A#8] } ∧
      operandFault (.flush 0x01#8 0x32#8) = none) ∧
    (exec (.clear 0x65#8) State.reset = .next { State.reset with fault := true, cause := 0x06#8 } ∧
      operandFault (.clear 0x65#8) ≠ none) :=
  ⟨⟨answers (by decide), by decide⟩, answers (by decide), by decide⟩

/-- The first value beyond each range. -/
theorem test_witness_OperandChecksFollowTheTable :
    State.reset.fault = false ∧
    (∀ x ∈ [0x00#8, (0x33#8 : Byte)], ¬ (1 ≤ x.toNat ∧ x.toNat ≤ 50 ∧ 1 ≤ (0x11#8 : Byte).toNat ∧ (0x11#8 : Byte).toNat ≤ 16)) ∧
    ¬ (1 ≤ (0x32#8 : Byte).toNat ∧ (0x32#8 : Byte).toNat ≤ 50 ∧ 1 ≤ (0x01#8 : Byte).toNat ∧ (0x01#8 : Byte).toNat ≤ 16 ∧
      1 ≤ (0x02#8 : Byte).toNat ∧ (0x32#8 : Byte).toNat + (0x02#8 : Byte).toNat - 1 ≤ 50) ∧
    100 < (0x65#8 : Byte).toNat ∧
    ¬ (1 ≤ (0x08#8 : Byte).toNat ∧ (0x08#8 : Byte).toNat ≤ 50 ∧ 1 ≤ (0x02#8 : Byte).toNat ∧ 1 ≤ (0x08#8 : Byte).toNat ∧
      (0x08#8 : Byte).toNat ≤ (0x08#8 : Byte).toNat ∧ 1 ≤ (0x01#8 : Byte).toNat ∧ (0x01#8 : Byte).toNat ≤ 16 ∧
      (0x08#8 : Byte).toNat + (0x02#8 : Byte).toNat - 1 ≤ (0x08#8 : Byte).toNat) ∧
    ¬ (1 ≤ (0x08#8 : Byte).toNat ∧ (0x08#8 : Byte).toNat ≤ 50 ∧ 1 ≤ (0x2C#8 : Byte).toNat ∧ (0x2C#8 : Byte).toNat ≤ 50 ∧
      (0x2C#8 : Byte).toNat + (0x08#8 : Byte).toNat - 1 ≤ 50) := by
  decide

/-- A reserved opcode, and a header that fails its checks. -/
theorem test_witness_FaultIsPreciseAtCommandGranularity :
    ready (atPort [0x06#8]) = true ∧ decode ((atPort [0x06#8]).latched ++ (atPort [0x06#8]).port) = .rejected .illegalOpcode none [] ∧
    ready (atPort [0x05#8, 0x00#8, 0x01#8]) = true ∧ decode ((atPort [0x05#8, 0x00#8, 0x01#8]).latched ++
      (atPort [0x05#8, 0x00#8, 0x01#8]).port) = .rejected .widthRange (some (.flush 0x00#8 0x01#8)) [] := by
  decide

theorem test_witness_OnlyAFaultSetsTheFlag :
    (atPort [0x00#8]).fault = false ∧
    step (atPort [0x00#8]) = .next { State.reset with fault := true, cause := 0x01#8, position := 1 } :=
  ⟨by decide, answers (by decide)⟩

/-- Without and with a reset asserted. -/
theorem test_witness_HaltedBlockDiscards :
    haltedState.fault = true ∧ haltedState.resetPending = false ∧ haltedState.port ≠ [] ∧
    haltedState.requestReset.fault = true ∧ next? (step haltedState.requestReset) (fun t => !t.fault) = true := by
  decide

theorem test_witness_HaltedStateIsLeftOnlyByReset :
    haltedState.fault = true ∧ haltedState.resetPending = false ∧ [[0x03#8, 0x00#8], ([] : List Byte)] ≠ [] := by
  decide

theorem test_witness_ResetIsOneTransition : haltedState.requestReset.resetPending = true := by decide

theorem test_witness_EveryStepKeepsTheInvariant :
    legal (withCells 16 [0x03#8, 0x00#8]) = true ∧ step (withCells 16 [0x03#8, 0x00#8]) = .next { withCells 16 [] with position := 2 } ∧
    legal haltedState = true :=
  ⟨by decide, answers (by decide), by decide⟩

theorem test_witness_EveryCommandSetsItsOwnCursor :
    (atPort [0x01#8, 0x01#8, 0x01#8, 0xA5#8]).resetPending = false ∧ step (atPort [0x01#8, 0x01#8, 0x01#8, 0xA5#8]) =
      .next { State.reset with position := 4, emitted := [.writePixelAt 1 1 0xA5#8] } :=
  ⟨by decide, answers (by decide)⟩

/-- At rows 2, 8 (a spill) and 16 (clipped), column 50; a cell of the primary page, of the spill page, and another. -/
theorem test_witness_PlaceColumnReplacesWholeCells :
    State.reset.fault = false ∧ 1 ≤ (0x32#8 : Byte).toNat ∧ (0x32#8 : Byte).toNat ≤ 50 ∧
    (∀ y ∈ [0x02#8, 0x08#8, (0x10#8 : Byte)], 1 ≤ y.toNat ∧ y.toNat ≤ 16) ∧
    1 = ((0x02#8 : Byte).toNat - 1) / 8 + 1 ∧ 2 = ((0x10#8 : Byte).toNat - 1) / 8 + 1 ∧ ¬ (49 = (0x32#8 : Byte).toNat) := by
  decide

/-- An image that ends at the last column, and one that ends before it. -/
theorem test_witness_ImageAndColumnsDrawTheSamePicture :
    State.reset.fault = false ∧ wellFormed (.placeImage 0x31#8 0x02#8 0x02#8 [0x80#8, 0x7F#8]) = true ∧
    ¬ ((0x31#8 : Byte).toNat + (0x02#8 : Byte).toNat ≤ 50) ∧
    wellFormed (.placeImage 0x30#8 0x01#8 0x02#8 [0x80#8, 0x7F#8]) = true ∧ (0x30#8 : Byte).toNat + (0x02#8 : Byte).toNat ≤ 50 := by
  decide

/-- A rectangle that ends at the last column; a column inside and one outside. -/
theorem test_witness_FlushRewritesItsRectangle :
    State.reset.fault = false ∧ wellFormed (.flush 0x08#8 0x2B#8) = true ∧
    ((0x2B#8 : Byte).toNat ≤ 50 ∧ 50 < (0x2B#8 : Byte).toNat + (0x08#8 : Byte).toNat) ∧ ¬ ((0x2B#8 : Byte).toNat ≤ 42) := by
  decide

theorem test_witness_DrawCycle :
    State.reset.fault = false ∧ (withCells 16 []).fault = false ∧ (withCells 16 []).emitted = State.reset.emitted ∧
    wellFormed (.flush 0x06#8 0x01#8) = true ∧
    (∀ i ∈ [Instr.orPlace 0x06#8 0x01#8 0x01#8 0x03#8 [0x0F#8], .orPlace 0x06#8 0x01#8 0x01#8 0x06#8 [0x01#8]],
      wellFormed i = true ∧ orPlaceOfWidth 0x06#8 i = true) := by
  decide

theorem test_witness_RollStepWrapsAtThePeriod : 62 < reelPeriod 7 ∧ 0 < reelPeriod 1 := by decide

/-- The reel of V-REEL at its last position, on a cleared buffer. -/
theorem test_witness_ReelDrawShowsTheStrip :
    State.reset.fault = false ∧ 1 ≤ (0x04#8 : Byte).toNat ∧ (0x04#8 : Byte).toNat ≤ 50 ∧ 1 ≤ (0x01#8 : Byte).toNat ∧
    1 ≤ testReel.columns ∧ (0x01#8 : Byte).toNat + testReel.columns - 1 ≤ (0x04#8 : Byte).toNat ∧
    (∀ image ∈ testReel.table, image.length = testReel.columns) ∧ 62 < reelPeriod testReel.count ∧
    (∀ a, a < 2 * (0x04#8 : Byte).toNat → State.cell { State.reset with vfb := cellsOf 8 0x00#8 } a = 0x00#8) := by
  decide

end Sys2Proof.Tests
end

section
/-! SUPPORT. What one step answers at a block that is ready: neither in reset nor halted (R12, R20). -/

namespace Sys2Proof.Machine

/-- `ready` read as its two flags, the guards that `step` asks before it decodes (R184, R186). -/
theorem ready_iff {s : State} : ready s = true ↔ s.resetPending = false ∧ s.fault = false := by
  simp only [ready, Bool.and_eq_true, Bool.not_eq_true']

/-- The command case of `step` (R12, R20). -/
theorem step_of_command {s : State} {i : Instr} {rest : List Byte} (hs : ready s = true)
    (hd : decode s.commandBytes = .command i rest) : step s = exec i (s.consume rest) := by
  obtain ⟨hreset, hfault⟩ := ready_iff.mp hs
  simp only [step, hreset, hfault, hd, Bool.false_eq_true, if_false]

end Sys2Proof.Machine
end

section
/-! PROOFS. The command stream: a step whose bytes decode to a command. -/

namespace Sys2Proof.Proofs

open Machine

/-- Settles O7: the command case of `step`, with `commandBytes` and `consume` written out. -/
theorem stepRunsTheDecodedCommand : Obligations.StepRunsTheDecodedCommand := by
  intro s i rest hready hdecode
  have hbytes : decode s.commandBytes = .command i rest := hdecode
  calc step s = exec i (s.consume rest) := step_of_command hready hbytes
    _ = exec i { s with latched := [], port := rest,
                        position := s.position + (s.port.length - rest.length) } := rfl

end Sys2Proof.Proofs
end

section
/-! SUPPORT. The decoder both ways (R67, R74): the byte lists that get each of its answers, and what a byte list that got one
looks like. -/

namespace Sys2Proof

open Machine (Cause operandFault)

/-- A command of the block is one whose checks pass and whose payload is whole. -/
theorem wellFormed_iff {i : Instr} : wellFormed i = true ↔ operandFault i = none ∧ payloadFits i = true := by
  simp only [wellFormed, Bool.and_eq_true, Option.isNone_iff_eq_none]

/-- The format lemmas of Laws/PerInstr, for every command. -/
theorem length_encode {i : Instr} (h : payloadFits i = true) : (encode i).length = formatLength i := by
  cases i with
  | placeColumn x y col => exact Laws.EncodeLength.placeColumn x y col h
  | placeImage x y n c => exact Laws.EncodeLength.placeImage x y n c h
  | clear size => exact Laws.EncodeLength.clear size h
  | orPlace w n x y c => exact Laws.EncodeLength.orPlace w n x y c h
  | flush w x => exact Laws.EncodeLength.flush w x h

/-! From bytes of a known shape to the answer. -/

/-- The bytes of a well-formed command decode to it, whatever follows (R67). -/
theorem decode_encode_append {i : Instr} (h : wellFormed i = true) (rest : List Byte) :
    decode (encode i ++ rest) = .command i rest := by
  obtain ⟨hchecks, hfits⟩ := wellFormed_iff.mp h
  cases i with
  | placeColumn x y col => exact afterHeader_of_none hchecks
  | placeImage x y n c =>
    have hheader : operandFault (.placeImage x y n []) = none := hchecks
    exact (afterHeader_of_none hheader).trans (takePayload_append (of_decide_eq_true hfits))
  | clear size => exact afterHeader_of_none hchecks
  | orPlace w n x y c =>
    have hheader : operandFault (.orPlace w n x y []) = none := hchecks
    exact (afterHeader_of_none hheader).trans (takePayload_append (of_decide_eq_true hfits))
  | flush w x => exact afterHeader_of_none hchecks

/-- A header whose checks fail is rejected with their cause, whatever follows (R182, R183). -/
theorem decode_badHeader_append {i : Instr} {c : Cause} (hc : operandFault i = some c) (hp : payload i = [])
    (rest : List Byte) : decode (encode i ++ rest) = .rejected c (some i) rest := by
  cases i with
  | placeColumn x y col => exact afterHeader_of_some hc
  | placeImage x y n cols =>
    obtain rfl : cols = [] := hp
    exact afterHeader_of_some hc
  | clear size => exact afterHeader_of_some hc
  | orPlace w n x y cols =>
    obtain rfl : cols = [] := hp
    exact afterHeader_of_some hc
  | flush w x => exact afterHeader_of_some hc

/-- A byte that selects no command is rejected at once (R70). -/
theorem decode_reserved {op : Byte} (h : op.toNat = 0 ∨ 6 ≤ op.toNat) (rest : List Byte) :
    decode (op :: rest) = .rejected .illegalOpcode none rest := by
  have hne : ∀ k : Byte, 1 ≤ k.toNat → k.toNat ≤ 5 → op ≠ k := by
    rintro k h1 h5 rfl
    omega
  simp only [decode, if_neg (hne 0x01#8 (by decide) (by decide)), if_neg (hne 0x02#8 (by decide) (by decide)),
    if_neg (hne 0x03#8 (by decide) (by decide)), if_neg (hne 0x04#8 (by decide) (by decide)),
    if_neg (hne 0x05#8 (by decide) (by decide))]

/-! From the answer to the bytes. -/

/-- The bytes behind each answer of the decoder (R74). -/
inductive DecodesTo : List Byte → Decoded → Prop
  | command {i : Instr} (rest : List Byte) (h : wellFormed i = true) : DecodesTo (encode i ++ rest) (.command i rest)
  | badHeader {i : Instr} {c : Cause} (rest : List Byte) (hc : operandFault i = some c) (hp : payload i = []) :
      DecodesTo (encode i ++ rest) (.rejected c (some i) rest)
  | reserved {op : Byte} (rest : List Byte) (h : op.toNat = 0 ∨ 6 ≤ op.toNat) :
      DecodesTo (op :: rest) (.rejected .illegalOpcode none rest)
  | incomplete (bytes : List Byte) : DecodesTo bytes .incomplete

/-- A complete header gives its fault, or what its payload gives. -/
theorem decodesTo_afterHeader {header : Instr} {rest : List Byte} {d : Decoded} (hp : payload header = [])
    (hd : operandFault header = none → DecodesTo (encode header ++ rest) d) :
    DecodesTo (encode header ++ rest) (afterHeader header rest d) := by
  obtain ⟨c, hc, heq⟩ | ⟨hnone, heq⟩ := afterHeader_eq header rest d
  · rw [heq]
    exact .badHeader rest hc hp
  · rw [heq]
    exact hd hnone

/-- A payload makes a whole command of the header before it, or is waited for. -/
theorem decodesTo_takePayload {n : Nat} {make : List Byte → Instr} {bytes : List Byte}
    (hwf : ∀ c, c.length = n → wellFormed (make c) = true)
    (henc : ∀ c, encode (make c) = encode (make []) ++ c) :
    DecodesTo (encode (make []) ++ bytes) (takePayload n make bytes) := by
  by_cases hle : n ≤ bytes.length
  · have hbytes : encode (make []) ++ bytes = encode (make (bytes.take n)) ++ bytes.drop n := by
      rw [henc (bytes.take n), List.append_assoc, List.take_append_drop]
    rw [takePayload_of_le hle, hbytes]
    exact .command _ (hwf _ (by simp [hle]))
  · rw [takePayload_short (Nat.lt_of_not_le hle)]
    exact .incomplete _

theorem decodesTo_decodeC : ∀ bytes : List Byte, DecodesTo (0x01#8 :: bytes) (decodeC bytes)
  | x :: y :: col :: rest =>
    decodesTo_afterHeader (header := .placeColumn x y col) rfl fun hchecks =>
      .command rest (wellFormed_iff.mpr ⟨hchecks, rfl⟩)
  | [] | [_] | [_, _] => .incomplete _

theorem decodesTo_decodeI : ∀ bytes : List Byte, DecodesTo (0x02#8 :: bytes) (decodeI bytes)
  | x :: y :: n :: _ =>
    decodesTo_afterHeader (header := .placeImage x y n []) rfl fun hchecks =>
      decodesTo_takePayload (make := .placeImage x y n)
        (fun _ hlen => wellFormed_iff.mpr ⟨hchecks, decide_eq_true hlen⟩) fun _ => rfl
  | [] | [_] | [_, _] => .incomplete _

theorem decodesTo_decodeS : ∀ bytes : List Byte, DecodesTo (0x03#8 :: bytes) (decodeS bytes)
  | size :: rest =>
    decodesTo_afterHeader (header := .clear size) rfl fun hchecks =>
      .command rest (wellFormed_iff.mpr ⟨hchecks, rfl⟩)
  | [] => .incomplete _

theorem decodesTo_decodeB : ∀ bytes : List Byte, DecodesTo (0x04#8 :: bytes) (decodeB bytes)
  | w :: n :: x :: y :: _ =>
    decodesTo_afterHeader (header := .orPlace w n x y []) rfl fun hchecks =>
      decodesTo_takePayload (make := .orPlace w n x y)
        (fun _ hlen => wellFormed_iff.mpr ⟨hchecks, decide_eq_true hlen⟩) fun _ => rfl
  | [] | [_] | [_, _] | [_, _, _] => .incomplete _

theorem decodesTo_decodeF : ∀ bytes : List Byte, DecodesTo (0x05#8 :: bytes) (decodeF bytes)
  | w :: x :: rest =>
    decodesTo_afterHeader (header := .flush w x) rfl fun hchecks =>
      .command rest (wellFormed_iff.mpr ⟨hchecks, rfl⟩)
  | [] | [_] => .incomplete _

/-- A byte is one of the five opcodes or selects no command (R69, R70). -/
theorem opcode_cases (op : Byte) :
    op = 0x01#8 ∨ op = 0x02#8 ∨ op = 0x03#8 ∨ op = 0x04#8 ∨ op = 0x05#8 ∨ op.toNat = 0 ∨ 6 ≤ op.toNat := by
  bv_omega

/-- Everything the decoder can answer. -/
theorem decodesTo_decode : ∀ bytes : List Byte, DecodesTo bytes (decode bytes)
  | [] => .incomplete []
  | op :: bytes => by
    obtain rfl | rfl | rfl | rfl | rfl | hop := opcode_cases op
    · exact decodesTo_decodeC bytes
    · exact decodesTo_decodeI bytes
    · exact decodesTo_decodeS bytes
    · exact decodesTo_decodeB bytes
    · exact decodesTo_decodeF bytes
    · exact decode_reserved hop bytes ▸ .reserved bytes hop

theorem of_decode_command {bytes rest : List Byte} {i : Instr} (h : decode bytes = .command i rest) :
    wellFormed i = true ∧ bytes = encode i ++ rest := by
  have hd := decodesTo_decode bytes
  rw [h] at hd
  cases hd with
  | command _ hwf => exact ⟨hwf, rfl⟩

theorem of_decode_badHeader {bytes rest : List Byte} {i : Instr} {c : Cause}
    (h : decode bytes = .rejected c (some i) rest) :
    operandFault i = some c ∧ payload i = [] ∧ bytes = encode i ++ rest := by
  have hd := decodesTo_decode bytes
  rw [h] at hd
  cases hd with
  | badHeader _ hc hp => exact ⟨hc, hp, rfl⟩

theorem of_decode_noHeader {bytes rest : List Byte} {c : Cause} (h : decode bytes = .rejected c none rest) :
    c = .illegalOpcode ∧ ∃ op : Byte, (op.toNat = 0 ∨ 6 ≤ op.toNat) ∧ bytes = op :: rest := by
  have hd := decodesTo_decode bytes
  rw [h] at hd
  cases hd with
  | reserved _ hop => exact ⟨rfl, _, hop, rfl⟩

/-! What an incomplete command can be. -/

/-- A command in progress has one of the five opcodes. -/
theorem opcode_of_incomplete {op : Byte} {bytes : List Byte} (h : decode (op :: bytes) = .incomplete) :
    1 ≤ op.toNat ∧ op.toNat ≤ 5 := by
  by_contra hop
  rw [decode_reserved (by omega)] at h
  cases h

/-- The bytes an answer other than `incomplete` takes reach beyond any incomplete beginning: what it takes of them after that
beginning comes off the front. -/
theorem split_of_incomplete {latched port taken rest : List Byte} (hl : decode latched = .incomplete)
    (htaken : ∀ more, decode (taken ++ more) ≠ .incomplete) (h : latched ++ port = taken ++ rest) :
    ∃ front, port = front ++ rest := by
  obtain ⟨front, -, hport⟩ | ⟨more, hlatched, -⟩ := List.append_eq_append_iff.mp h
  · exact ⟨front, hport⟩
  · exact absurd (hlatched ▸ hl) (htaken more)

/-- A command that completes an incomplete beginning takes its other bytes from the front of what follows (R60). -/
theorem split_of_decode_command {latched port rest : List Byte} {i : Instr} (hl : decode latched = .incomplete)
    (h : decode (latched ++ port) = .command i rest) : ∃ front, port = front ++ rest := by
  obtain ⟨hwf, hbytes⟩ := of_decode_command h
  refine split_of_incomplete hl (fun more => ?_) hbytes
  rw [decode_encode_append hwf]
  exact Decoded.noConfusion

/-- So does a fault. -/
theorem split_of_decode_rejected {latched port rest : List Byte} {c : Cause} {header : Option Instr}
    (hl : decode latched = .incomplete) (h : decode (latched ++ port) = .rejected c header rest) :
    ∃ front, port = front ++ rest := by
  cases header with
  | none =>
    obtain ⟨-, op, hop, hbytes⟩ := of_decode_noHeader h
    refine split_of_incomplete (taken := [op]) hl (fun more => ?_) hbytes
    rw [List.singleton_append, decode_reserved hop]
    exact Decoded.noConfusion
  | some i =>
    obtain ⟨hc, hp, hbytes⟩ := of_decode_badHeader h
    refine split_of_incomplete hl (fun more => ?_) hbytes
    rw [decode_badHeader_append hc hp]
    exact Decoded.noConfusion

end Sys2Proof
end

section
/-! SUPPORT. What any command does: its operands as ranges, its effect as one function, and all that `exec` can answer. -/

namespace Sys2Proof.Machine

/-! The operand ranges of R182: the checks of a command all pass. -/

theorem operandFault_placeColumn_eq_none {x y col : Byte} :
    operandFault (.placeColumn x y col) = none ↔
      (1 ≤ x.toNat ∧ x.toNat ≤ 50) ∧ 1 ≤ y.toNat ∧ y.toNat ≤ 16 := by
  simp [operandFault, operandChecks, placeColumnChecks, firstFailure_eq_none_iff]

theorem operandFault_placeImage_eq_none {x y n : Byte} {c : List Byte} :
    operandFault (.placeImage x y n c) = none ↔
      (1 ≤ x.toNat ∧ x.toNat ≤ 50) ∧ (1 ≤ y.toNat ∧ y.toNat ≤ 16) ∧ 1 ≤ n.toNat ∧
        x.toNat + n.toNat ≤ 51 := by
  simp [operandFault, operandChecks, placeImageChecks, firstFailure_eq_none_iff]

theorem operandFault_orPlace_eq_none {w n x y : Byte} {c : List Byte} :
    operandFault (.orPlace w n x y c) = none ↔
      (1 ≤ w.toNat ∧ w.toNat ≤ 50) ∧ 1 ≤ n.toNat ∧ (1 ≤ x.toNat ∧ x.toNat ≤ w.toNat) ∧
        (1 ≤ y.toNat ∧ y.toNat ≤ 16) ∧ x.toNat + n.toNat ≤ w.toNat + 1 := by
  simp [operandFault, operandChecks, orPlaceChecks, firstFailure_eq_none_iff]

theorem operandFault_flush_eq_none {w x : Byte} :
    operandFault (.flush w x) = none ↔
      (1 ≤ w.toNat ∧ w.toNat ≤ 50) ∧ (1 ≤ x.toNat ∧ x.toNat ≤ 50) ∧ x.toNat + w.toNat ≤ 51 := by
  simp [operandFault, operandChecks, flushChecks, firstFailure_eq_none_iff]

/-! The effect of a command that completes. `exec_eq_runCommand` ties it to `exec`. -/

/-- One past the last cell a command touches, 0 for the direct placements (R40). -/
def cellBound : Instr → Nat
  | .placeColumn _ _ _ => 0
  | .placeImage _ _ _ _ => 0
  | .clear size => size.toNat
  | .orPlace w _ x y c => orPlaceBound w.toNat x.toNat y.toNat c
  | .flush w _ => 2 * w.toNat

/-- The sink operations a command that completes emits (R110, R111, R132). -/
def commandOps : Instr → State → List SinkOp
  | .placeColumn x y col, _ => columnOps x.toNat y.toNat col
  | .placeImage x y _ c, _ => imageOps x.toNat y.toNat c
  | .clear _, _ => []
  | .orPlace _ _ _ _ _, _ => []
  | .flush w x, s => streamRun x.toNat 1 (s.cells 0 w.toNat) ++ streamRun x.toNat 2 (s.cells w.toNat w.toNat)

/-- The state a command that completes leaves. -/
def completed : Instr → State → State
  | .clear size, s => s.zeroCells size.toNat
  | .orPlace w _ x y c, s =>
    orColumns w.toNat (offsetOf y.toNat) (hasSpill (pageOf y.toNat) (offsetOf y.toNat))
      (orPlaceBase w.toNat x.toNat y.toNat) c s
  | i@(.placeColumn _ _ _), s => s.emit (commandOps i s)
  | i@(.placeImage _ _ _ _), s => s.emit (commandOps i s)
  | i@(.flush _ _), s => s.emit (commandOps i s)

/-- Every command runs in the same frame: its checks, its bound, its effect (R182, R40). -/
theorem exec_eq_runCommand (i : Instr) (s : State) :
    exec i s = runCommand (operandChecks i) s fun s => touching (cellBound i) (.next (completed i s)) := by
  cases i <;> rfl

/-- A command whose checks fail takes their fault and does nothing else (R183). -/
theorem exec_of_operandFault {i : Instr} {s : State} {c : Cause} (hs : s.fault = false) (hc : operandFault i = some c) :
    exec i s = .next (takeFault c s) := by
  rw [exec_eq_runCommand]
  exact runCommand_fault s hs hc

/-- All a command can answer that goes on: nothing done while halted, its fault, or its effect. -/
theorem exec_next {i : Instr} {s t : State} (h : exec i s = .next t) :
    (s.fault = true ∧ t = s) ∨
    (s.fault = false ∧ ∃ c, operandFault i = some c ∧ t = takeFault c s) ∨
    (s.fault = false ∧ operandFault i = none ∧ cellBound i ≤ Config.vfbBytes ∧ t = completed i s) := by
  rw [exec_eq_runCommand] at h
  obtain hhalted | hfault | ⟨hs, hchecks, heffect⟩ := runCommand_next s h
  · exact .inl hhalted
  · exact .inr (.inl hfault)
  · obtain ⟨hbound, hnext⟩ := touching_next heffect
    cases hnext
    exact .inr (.inr ⟨hs, hchecks, hbound, rfl⟩)

/-! The frame of an effect. -/

/-- A state that differs in VFB at most, differs in VFB and the emitted sequence at most. -/
theorem frame_vfb_emitted {s t : State} (h : t = { s with vfb := t.vfb }) :
    t = { s with vfb := t.vfb, emitted := t.emitted } := by
  rw [h]

/-- A command that completes changes VFB and the emitted sequence at most. -/
theorem completed_frame (i : Instr) (s : State) :
    completed i s = { s with vfb := (completed i s).vfb, emitted := (completed i s).emitted } := by
  cases i with
  | placeColumn x y col => rfl
  | placeImage x y n c => rfl
  | clear size => exact frame_vfb_emitted (zeroCells_frame s size.toNat)
  | orPlace w n x y c => exact frame_vfb_emitted (orColumns_frame s _ _ _ _ c)
  | flush w x => rfl

variable (i : Instr) (s : State)

@[simp] theorem completed_fault : (completed i s).fault = s.fault := by rw [completed_frame]
@[simp] theorem completed_cause : (completed i s).cause = s.cause := by rw [completed_frame]
@[simp] theorem completed_latched : (completed i s).latched = s.latched := by rw [completed_frame]
@[simp] theorem completed_position : (completed i s).position = s.position := by rw [completed_frame]
@[simp] theorem completed_port : (completed i s).port = s.port := by rw [completed_frame]
@[simp] theorem completed_resetPending : (completed i s).resetPending = s.resetPending := by rw [completed_frame]
@[simp] theorem completed_resets : (completed i s).resets = s.resets := by rw [completed_frame]

/-- A command that completes appends its own operations to the emitted sequence (R26). -/
@[simp] theorem completed_emitted : (completed i s).emitted = s.emitted ++ commandOps i s := by
  cases i with
  | placeColumn x y col => rfl
  | placeImage x y n c => rfl
  | clear size =>
    exact (congrArg State.emitted (zeroCells_frame s size.toNat)).trans (List.append_nil _).symm
  | orPlace w n x y c =>
    exact (congrArg State.emitted (orColumns_frame s _ _ _ _ c)).trans (List.append_nil _).symm
  | flush w x => rfl

variable {i : Instr} {s : State}

/-- Only CLEAR and OR_PLACE write VFB (R130, R131). -/
theorem completed_vfb (hclear : ∀ size, i ≠ .clear size) (hor : ∀ w n x y c, i ≠ .orPlace w n x y c) :
    (completed i s).vfb = s.vfb := by
  cases i with
  | placeColumn x y col => rfl
  | placeImage x y n c => rfl
  | clear size => exact absurd rfl (hclear size)
  | orPlace w n x y c => exact absurd rfl (hor w n x y c)
  | flush w x => rfl

/-- Only PLACE_COLUMN, PLACE_IMAGE and FLUSH emit (R110, R111, R132). -/
theorem commandOps_eq_nil (hcolumn : ∀ x y col, i ≠ .placeColumn x y col)
    (himage : ∀ x y n c, i ≠ .placeImage x y n c) (hflush : ∀ w x, i ≠ .flush w x) : commandOps i s = [] := by
  cases i with
  | placeColumn x y col => exact absurd rfl (hcolumn x y col)
  | placeImage x y n c => exact absurd rfl (himage x y n c)
  | clear size => rfl
  | orPlace w n x y c => rfl
  | flush w x => exact absurd rfl (hflush w x)

/-- A command that touches existing cells only keeps the framebuffer's list canonical (R40). -/
theorem completed_vfb_wf (hs : s.vfb.wf = true) (hbound : cellBound i ≤ Config.vfbBytes) :
    (completed i s).vfb.wf = true := by
  cases i with
  | placeColumn x y col => exact hs
  | placeImage x y n c => exact hs
  | clear size => exact zeroCells_wf s hs hbound
  | orPlace w n x y c =>
    simp only [cellBound, orPlaceBound] at hbound
    refine orColumns_wf s hs ?_ fun hspill => ?_
    · split at hbound <;> omega
    · simpa only [if_pos hspill] using hbound
  | flush w x => exact hs

end Sys2Proof.Machine
end

section
/-! SUPPORT. What has a meaning on a display with an unset cursor (R27, R49), and that a command's own operations do. -/

namespace Sys2Proof.Machine

theorem drawable_iff {ops : List SinkOp} : drawable ops = true ↔ ∃ d, blankDisplay.run ops = some d := by
  simp only [drawable, Option.isSome_iff_exists]

theorem drawable_nil : drawable [] = true := rfl

/-- Of a display only the cursor decides whether an operation has a meaning and where it leaves the cursor; an unset cursor
allows the least. -/
theorem apply_of_cursor {d e d' : Display} {op : SinkOp} (hc : d.cursor = none ∨ d.cursor = e.cursor)
    (h : d.apply op = some d') : ∃ e', e.apply op = some e' ∧ d'.cursor = e'.cursor := by
  cases op with
  | setCursor col page =>
    simp only [Display.apply] at h ⊢
    split at h
    next hon =>
      cases h
      exact ⟨_, if_pos hon, rfl⟩
    next => cases h
  | writePixelAt col page b =>
    simp only [Display.apply] at h ⊢
    split at h
    next hon =>
      cases h
      exact ⟨_, if_pos hon, rfl⟩
    next => cases h
  | writeData b =>
    cases hcursor : d.cursor with
    | none => simp [Display.apply, hcursor] at h
    | some place =>
      obtain ⟨col, page⟩ := place
      have he : e.cursor = some (col, page) := by simpa [hcursor, eq_comm] using hc
      simp only [Display.apply, hcursor, he] at h ⊢
      split at h
      next hon =>
        cases h
        exact ⟨_, if_pos hon, rfl⟩
      next => cases h

/-- The same for a sequence: after its first operation the two cursors agree. -/
theorem run_of_cursor {ops : List SinkOp} {d e d' : Display} (hc : d.cursor = none ∨ d.cursor = e.cursor)
    (h : d.run ops = some d') : ∃ e', e.run ops = some e' := by
  induction ops generalizing d e with
  | nil => exact ⟨e, rfl⟩
  | cons op ops ih =>
    simp only [Display.run] at h ⊢
    split at h
    · rename_i d₁ hd₁
      obtain ⟨e₁, he₁, hcursor⟩ := apply_of_cursor hc hd₁
      rw [he₁]
      exact ih (.inr hcursor) h
    · cases h

/-- What needs no cursor has a meaning on every display: no earlier command is in its way (R49). -/
theorem run_of_drawable {ops : List SinkOp} (h : drawable ops = true) (d : Display) : ∃ d', d.run ops = some d' :=
  let ⟨_, hrun⟩ := drawable_iff.mp h
  run_of_cursor (.inl rfl) hrun

theorem drawable_append {a b : List SinkOp} (ha : drawable a = true) (hb : drawable b = true) :
    drawable (a ++ b) = true := by
  obtain ⟨d, hd⟩ := drawable_iff.mp ha
  obtain ⟨d', hd'⟩ := run_of_drawable hb d
  exact drawable_iff.mpr ⟨d', by rw [run_append, hd, Option.bind_some, hd']⟩

/-- A write run that stays on its row (R49, R111). -/
theorem drawable_streamRun {x p : Nat} {bytes : List Byte} (h : onDisplay x p = true) (hl : x + bytes.length ≤ 51) :
    drawable (streamRun x p bytes) = true :=
  let ⟨d, hrun, _, _⟩ := run_streamRun bytes blankDisplay x p h hl
  drawable_iff.mpr ⟨d, hrun⟩

theorem drawable_writePixelAt {x p : Nat} (b : Byte) (h : onDisplay x p = true) :
    drawable [.writePixelAt x p b] = true := by
  simp [drawable, Display.run, Display.apply, h]

/-- A pixel row of the display lies in one of its two pages (R90). -/
theorem pageOf_range {y : Nat} (h1 : 1 ≤ y) (h16 : y ≤ 16) : 1 ≤ pageOf y ∧ pageOf y ≤ 2 := by
  simp only [pageOf, pageMap]
  split <;> omega

/-- The page of a row, and its spill page where there is one, are on the display (R93). -/
theorem onDisplay_pageOf {x y : Nat} (hx : 1 ≤ x ∧ x ≤ 50) (hy : 1 ≤ y ∧ y ≤ 16) :
    onDisplay x (pageOf y) = true ∧
      (hasSpill (pageOf y) (offsetOf y) = true → onDisplay x (pageOf y + 1) = true) := by
  have hpage := pageOf_range hy.1 hy.2
  refine ⟨onDisplay_iff.mpr ⟨hx.1, hx.2, hpage⟩, fun hspill => onDisplay_iff.mpr ⟨hx.1, hx.2, ?_⟩⟩
  have hnext := ((hasSpill_eq_true _ _).mp hspill).2
  omega

theorem drawable_columnOps {x y : Nat} (col : Byte) (hx : 1 ≤ x ∧ x ≤ 50) (hy : 1 ≤ y ∧ y ≤ 16) :
    drawable (columnOps x y col) = true := by
  obtain ⟨hprimary, hspill⟩ := onDisplay_pageOf hx hy
  simp only [columnOps, split]
  split
  · exact drawable_append (drawable_writePixelAt _ hprimary) (drawable_writePixelAt _ (hspill ‹_›))
  · exact drawable_writePixelAt _ hprimary

theorem drawable_imageOps {x y : Nat} {c : List Byte} (hx : 1 ≤ x ∧ x ≤ 50) (hy : 1 ≤ y ∧ y ≤ 16)
    (hl : x + c.length ≤ 51) : drawable (imageOps x y c) = true := by
  obtain ⟨hprimary, hspill⟩ := onDisplay_pageOf hx hy
  refine drawable_append (drawable_streamRun hprimary (by rwa [List.length_map])) ?_
  split
  · exact drawable_streamRun (hspill ‹_›) (by rwa [List.length_map])
  · exact drawable_nil

@[simp] theorem length_cells (s : State) (a count : Nat) : (s.cells a count).length = count := by
  simp [State.cells]

/-- What a well-formed command emits needs no cursor of an earlier one (R49). -/
theorem drawable_commandOps {i : Instr} (h : wellFormed i = true) (s : State) : drawable (commandOps i s) = true := by
  obtain ⟨hchecks, hfits⟩ := wellFormed_iff.mp h
  cases i with
  | placeColumn x y col =>
    obtain ⟨hx, hy⟩ := operandFault_placeColumn_eq_none.mp hchecks
    exact drawable_columnOps col hx hy
  | placeImage x y n c =>
    obtain ⟨hx, hy, -, hextent⟩ := operandFault_placeImage_eq_none.mp hchecks
    have hlen : c.length = n.toNat := of_decide_eq_true hfits
    exact drawable_imageOps hx hy (hlen ▸ hextent)
  | clear size => exact drawable_nil
  | orPlace w n x y c => exact drawable_nil
  | flush w x =>
    obtain ⟨-, hx, hextent⟩ := operandFault_flush_eq_none.mp hchecks
    have hpage {p : Nat} (hp : 1 ≤ p ∧ p ≤ 2) : onDisplay x.toNat p = true := onDisplay_iff.mpr ⟨hx.1, hx.2, hp⟩
    exact drawable_append (drawable_streamRun (hpage (by decide)) (by simpa using hextent))
      (drawable_streamRun (hpage (by decide)) (by simpa using hextent))

end Sys2Proof.Machine
end

section
/-! SUPPORT. Everything one step can do (R12, R20, R73, R183, R184, R210), and the invariant in its parts. -/

namespace Sys2Proof.Machine

/-- While a command is incomplete, every byte there is is latched (R73). -/
theorem step_of_incomplete {s : State} (hs : ready s = true) (hd : decode s.commandBytes = .incomplete) :
    step s = .next s.latchPort := by
  obtain ⟨hreset, hfault⟩ := ready_iff.mp hs
  simp only [step, hreset, hfault, hd, Bool.false_eq_true, if_false]

/-- The bytes that come off the port are counted one by one (R23). -/
theorem position_of_split {port front rest : List Byte} (position : Nat) (h : port = front ++ rest) :
    position + (port.length - rest.length) = position + front.length := by
  rw [h, List.length_append, Nat.add_sub_cancel]

/-- Where a step leads: a reset, a discard while halted, a command run to completion, a fault, or a wait. -/
inductive StepsTo (s : State) : State → Prop
  | reset (h : s.resetPending = true) : StepsTo s s.afterReset
  | discard (hreset : s.resetPending = false) (hfault : s.fault = true) : StepsTo s s.discardPort
  | command {i : Instr} {rest : List Byte} (hready : ready s = true) (hdecode : decode s.commandBytes = .command i rest)
      (hbound : cellBound i ≤ Config.vfbBytes) : StepsTo s (completed i (s.consume rest))
  | fault {c : Cause} {header : Option Instr} {rest : List Byte} (hready : ready s = true)
      (hdecode : decode s.commandBytes = .rejected c header rest) : StepsTo s (takeFault c (s.consume rest))
  | wait (hready : ready s = true) (hdecode : decode s.commandBytes = .incomplete) : StepsTo s s.latchPort

/-- A command the decoder answers completes: its checks pass, and the block is not halted. -/
theorem stepsTo_of_command {s t : State} {i : Instr} {rest : List Byte} (hready : ready s = true)
    (hdecode : decode s.commandBytes = .command i rest) (h : exec i (s.consume rest) = .next t) : StepsTo s t := by
  obtain ⟨-, hfault⟩ := ready_iff.mp hready
  obtain ⟨hchecks, -⟩ := wellFormed_iff.mp (of_decode_command hdecode).1
  obtain ⟨hhalted, -⟩ | ⟨-, c, hc, -⟩ | ⟨-, -, hbound, rfl⟩ := exec_next h
  · exact absurd hhalted (by simp [hfault])
  · exact absurd hc (by simp [hchecks])
  · exact .command hready hdecode hbound

/-- A header the decoder rejects takes the fault the decoder names: its meaning makes the same checks (R182). -/
theorem stepsTo_of_badHeader {s t : State} {i : Instr} {c : Cause} {rest : List Byte} (hready : ready s = true)
    (hdecode : decode s.commandBytes = .rejected c (some i) rest) (h : exec i (s.consume rest) = .next t) :
    StepsTo s t := by
  obtain ⟨-, hfault⟩ := ready_iff.mp hready
  rw [exec_of_operandFault (s := s.consume rest) hfault (of_decode_badHeader hdecode).1] at h
  cases h
  exact .fault hready hdecode

theorem stepsTo_of_step {s t : State} (h : step s = .next t) : StepsTo s t := by
  unfold step at h
  split at h
  next hreset =>
    cases h
    exact .reset hreset
  next hreset =>
    have hreset : s.resetPending = false := by simpa using hreset
    split at h
    next hfault =>
      cases h
      exact .discard hreset hfault
    next hfault =>
      have hready : ready s = true := ready_iff.mpr ⟨hreset, by simpa using hfault⟩
      split at h
      next hdecode => exact stepsTo_of_command hready hdecode h
      next hdecode => exact stepsTo_of_badHeader hready hdecode h
      next hdecode =>
        cases h
        exact .fault hready hdecode
      next hdecode =>
        cases h
        exact .wait hready hdecode

/-- Once a command has completed or faulted, nothing is latched (R22). -/
theorem latched_of_complete {s t : State} (hs : ready s = true) (h : step s = .next t)
    (hd : decode s.commandBytes ≠ .incomplete) : t.latched = [] := by
  obtain ⟨-, hfault⟩ := ready_iff.mp hs
  cases stepsTo_of_step h with
  | reset _ => rfl
  | discard _ hfault' => simp [hfault] at hfault'
  | command _ _ _ => simp
  | fault _ _ => rfl
  | wait _ hwait => exact absurd hwait hd

/-! The invariant in its parts. -/

theorem legal_iff {s : State} : legal s = true ↔
    s.vfb.wf = true ∧ statusLegal s = true ∧ latchesLegal s = true ∧ drawable s.emitted = true := by
  simp only [legal, Bool.and_eq_true, and_assoc]

theorem latchesLegal_iff {s : State} : latchesLegal s = true ↔
    decode s.latched = .incomplete ∧ (s.fault = true → s.latched = []) ∧ s.latched.length ≤ s.position := by
  cases hf : s.fault <;> simp [latchesLegal, hf, and_assoc]

/-- Empty latches are legal in any state (R29). -/
theorem latchesLegal_of_nil {s : State} (h : s.latched = []) : latchesLegal s = true :=
  latchesLegal_iff.mpr ⟨by rw [h, decode_nil], fun _ => h, by simp [h]⟩

/-- Only FAULT and CAUSE decide whether they agree (R25). -/
theorem statusLegal_congr {s t : State} (hf : t.fault = s.fault) (hc : t.cause = s.cause) :
    statusLegal t = statusLegal s := by
  simp only [statusLegal, hf, hc]

/-- Every cause has a code of R181. -/
theorem statusLegal_takeFault (c : Cause) (s : State) : statusLegal (takeFault c s) = true := by
  cases c <;> rfl

end Sys2Proof.Machine
end

section
/-! SUPPORT. The latches: the named view from the first byte (R22, R62 to R66), and how many columns a command in progress
can hold. -/

namespace Sys2Proof.Machine

theorem eq_cons_of_getElem?_zero {bytes : List Byte} {op : Byte} (h : bytes[0]? = some op) :
    ∃ tail, bytes = op :: tail := by
  cases bytes with
  | nil => cases h
  | cons b tail =>
    cases h
    exact ⟨tail, rfl⟩

/-- A named latch is the byte at the place the opcode's format gives it. -/
theorem latch_of_opcode {s : State} {op : Byte} (h : s.latched[0]? = some op) (l : Latch) :
    s.latch l = (latchPlace op l).bind fun k => s.latched[k]? := by
  obtain ⟨tail, hcons⟩ := eq_cons_of_getElem?_zero h
  rw [latch_of_cons hcons, hcons]

theorem latchedColumns_of_opcode {s : State} {op : Byte} (h : s.latched[0]? = some op) :
    s.latchedColumns = if op = 0x02#8 then s.latched.drop 4 else if op = 0x04#8 then s.latched.drop 5 else [] := by
  obtain ⟨tail, hcons⟩ := eq_cons_of_getElem?_zero h
  rw [latchedColumns_of_cons hcons, hcons]

/-- A payload is waited for only after a header that passes its checks, and only while it is short (R182, R73). -/
theorem payload_of_incomplete {header : Instr} {n : Nat} {make : List Byte → Instr} {columns : List Byte}
    (h : afterHeader header columns (takePayload n make columns) = .incomplete) :
    operandFault header = none ∧ columns.length < n := by
  obtain ⟨c, -, heq⟩ | ⟨hchecks, heq⟩ := afterHeader_eq header columns (takePayload n make columns)
  · rw [heq] at h
    cases h
  · refine ⟨hchecks, Nat.lt_of_not_le fun hle => ?_⟩
    rw [heq, takePayload_of_le hle] at h
    cases h

/-- PLACE_IMAGE waits with fewer columns than a row holds (R97). -/
theorem length_columns_of_decodeI : ∀ {bytes : List Byte}, decodeI bytes = .incomplete → (bytes.drop 3).length ≤ 50
  | _ :: _ :: _ :: columns, h => by
    obtain ⟨hchecks, hshort⟩ := payload_of_incomplete h
    obtain ⟨hx, -, -, hextent⟩ := operandFault_placeImage_eq_none.mp hchecks
    show columns.length ≤ 50
    omega
  | [], _ | [_], _ | [_, _], _ => Nat.zero_le _

/-- So does OR_PLACE. -/
theorem length_columns_of_decodeB : ∀ {bytes : List Byte}, decodeB bytes = .incomplete → (bytes.drop 4).length ≤ 50
  | _ :: _ :: _ :: _ :: columns, h => by
    obtain ⟨hchecks, hshort⟩ := payload_of_incomplete h
    obtain ⟨hw, -, hx, -, hextent⟩ := operandFault_orPlace_eq_none.mp hchecks
    show columns.length ≤ 50
    omega
  | [], _ | [_], _ | [_, _], _ | [_, _, _], _ => Nat.zero_le _

theorem length_latchedColumns_le {s : State} (h : decode s.latched = .incomplete) : s.latchedColumns.length ≤ 50 := by
  cases hlatched : s.latched with
  | nil => simp [latchedColumns_of_nil hlatched]
  | cons op bytes =>
    rw [hlatched] at h
    rw [latchedColumns_of_cons hlatched]
    split
    next hop =>
      subst hop
      exact length_columns_of_decodeI h
    next =>
      split
      next hop =>
        subst hop
        exact length_columns_of_decodeB h
      next => exact Nat.zero_le _

end Sys2Proof.Machine
end

section
/-! PROOFS. The state: reset, the frame of a command and of a step, and the invariant every step keeps. -/

namespace Sys2Proof.Proofs

open Machine

/-- Settles O11, by the cases of a step: the legal latches are an incomplete beginning, so what a command or a fault takes
beyond them comes off the front of the port. -/
theorem everyByteIsConsumedOnceInOrder : Obligations.EveryByteIsConsumedOnceInOrder := by
  intro s t hlegal hreset hstep
  obtain ⟨-, -, hlatches, -⟩ := legal_iff.mp hlegal
  obtain ⟨hpart, -, -⟩ := latchesLegal_iff.mp hlatches
  cases stepsTo_of_step hstep with
  | reset hreset' => simp [hreset] at hreset'
  | discard _ _ => exact ⟨s.port, by simp, rfl⟩
  | command _ hdecode _ =>
    obtain ⟨front, hport⟩ := split_of_decode_command hpart hdecode
    exact ⟨front, by simpa using hport, by simpa using position_of_split s.position hport⟩
  | fault _ hdecode =>
    obtain ⟨front, hport⟩ := split_of_decode_rejected hpart hdecode
    exact ⟨front, hport, position_of_split s.position hport⟩
  | wait _ _ => exact ⟨s.port, by simp, rfl⟩

/-- Settles O37, by the cases of a step and the parts of the invariant. -/
theorem everyStepKeepsTheInvariant : Obligations.EveryStepKeepsTheInvariant := by
  intro s t hlegal hstep
  obtain ⟨hvfb, hstatus, hlatches, hdraw⟩ := legal_iff.mp hlegal
  obtain ⟨hpart, hhalted, hcount⟩ := latchesLegal_iff.mp hlatches
  refine legal_iff.mpr ?_
  cases stepsTo_of_step hstep with
  | reset _ => exact ⟨afterReset_vfb_wf s, rfl, latchesLegal_of_nil rfl, drawable_nil⟩
  | discard _ hfault => exact ⟨hvfb, hstatus, latchesLegal_of_nil (hhalted hfault), hdraw⟩
  | command _ hdecode hbound =>
    have hops := drawable_commandOps (of_decode_command hdecode).1
    exact ⟨completed_vfb_wf hvfb hbound,
      (statusLegal_congr (completed_fault _ _) (completed_cause _ _)).trans hstatus,
      latchesLegal_of_nil (completed_latched _ _),
      by simpa using drawable_append hdraw (hops _)⟩
  | fault _ _ => exact ⟨hvfb, statusLegal_takeFault _ _, latchesLegal_of_nil rfl, hdraw⟩
  | wait hready hdecode =>
    have hlatched : latchesLegal s.latchPort = true := by
      refine latchesLegal_iff.mpr ⟨hdecode, fun hfault => ?_, ?_⟩
      · exact absurd hfault (by simp [(ready_iff.mp hready).2])
      · simpa using hcount
    exact ⟨hvfb, hstatus, hlatched, hdraw⟩

/-- Settles O38, by the cases of a step: only a command that completes appends, and it appends its own operations. -/
theorem everyCommandSetsItsOwnCursor : Obligations.EveryCommandSetsItsOwnCursor := by
  intro s t hreset hstep
  cases stepsTo_of_step hstep with
  | reset hreset' => simp [hreset] at hreset'
  | discard _ _ => exact ⟨[], by simp, drawable_nil⟩
  | @command i rest _ hdecode _ =>
    exact ⟨commandOps i (s.consume rest), completed_emitted i (s.consume rest),
      drawable_commandOps (of_decode_command hdecode).1 _⟩
  | fault _ _ => exact ⟨[], by simp, drawable_nil⟩
  | wait _ _ => exact ⟨[], by simp, drawable_nil⟩

/-- Settles O8: the bytes decode to the command (R67), and there are as many of them as its format says. -/
theorem stepOnACommandsBytesAdvancesByItsLength : Obligations.StepOnACommandsBytesAdvancesByItsLength := by
  intro s i rest hboundary hwf hport
  obtain ⟨hready, hlatched⟩ : ready s = true ∧ s.latched = [] := by simpa [atBoundary] using hboundary
  have hdecode : decode s.commandBytes = .command i rest := by
    rw [State.commandBytes, hlatched, List.nil_append, hport]
    exact decode_encode_append hwf rest
  have hposition : s.position + (s.port.length - rest.length) = s.position + formatLength i := by
    rw [position_of_split s.position hport, length_encode (wellFormed_iff.mp hwf).2]
  rw [step_of_command hready hdecode, State.consume, hposition, hlatched]

/-- Settles O12. The first half reads each format's places off `latchPlace`; the second is what a wait latches, and that
nothing stays latched otherwise. -/
theorem latchesHoldOnlyTheCommandInProgress : Obligations.LatchesHoldOnlyTheCommandInProgress := by
  refine ⟨fun u => ⟨?formatC, ?formatI, ?formatS, ?formatB, ?formatF, ?empty⟩,
    fun s t hs hstep => ⟨?waits, ?completes⟩⟩
  case formatC | formatI | formatS | formatB | formatF =>
    intro hop
    have hlatch := latch_of_opcode hop
    exact ⟨hlatch _, hlatch _, hlatch _, hlatch _, hlatch _, hlatch _, hlatch _, latchedColumns_of_opcode hop⟩
  case empty => exact fun hnil => ⟨latch_of_nil hnil, latchedColumns_of_nil hnil⟩
  case waits =>
    intro hd
    rw [step_of_incomplete hs hd] at hstep
    cases hstep
    have hpart : decode s.latchPort.latched = .incomplete := hd
    refine ⟨rfl, length_latchedColumns_le hpart, fun op hop => ?_⟩
    obtain ⟨tail, hcons⟩ := eq_cons_of_getElem?_zero hop
    rw [hcons] at hpart
    exact opcode_of_incomplete hpart
  case completes =>
    intro hd
    have hlatched := latched_of_complete hs hstep hd
    exact ⟨latch_of_nil hlatched, latchedColumns_of_nil hlatched⟩

/-- Settles O28, by the three answers of a command: nothing done while halted, its fault, or its effect and that effect's
frame. -/
theorem commandsLeaveEverythingElse : Obligations.CommandsLeaveEverythingElse := by
  intro i s t h
  obtain ⟨-, rfl⟩ | ⟨-, c, hc, rfl⟩ | ⟨-, hnone, -, rfl⟩ := exec_next h
  · simp
  · simp [hc]
  · refine ⟨by simp, by simp, by simp, by simp, by simp, fun _ => by simp, fun hsome => absurd hnone hsome,
      completed_vfb, fun hcolumn himage hflush => ?_⟩
    rw [completed_emitted, commandOps_eq_nil hcolumn himage hflush, List.append_nil]

/-- Settles O31, by the cases of a step: of those from FAULT = 0 only the fault leaves FAULT = 1. -/
theorem onlyAFaultSetsTheFlag : Obligations.OnlyAFaultSetsTheFlag := by
  intro s t hclear hstep hset
  cases stepsTo_of_step hstep with
  | reset _ => simp at hset
  | discard _ hfault => simp [hclear] at hfault
  | command _ _ _ => simp [hclear] at hset
  | fault _ hdecode => exact ⟨⟨_, _, _, hdecode, rfl⟩, rfl, rfl⟩
  | wait _ _ => simp [hclear] at hset

/-- Settles O35: the reset case of `step`, field by field. -/
theorem resetIsOneTransition : Obligations.ResetIsOneTransition := by
  intro s hreset
  have hstep : step s = .next s.afterReset := if_pos hreset
  exact ⟨s.afterReset, hstep, by simp⟩

/-- Settles O36, part by part of the invariant. -/
theorem resetStateIsLegal : Obligations.ResetStateIsLegal :=
  legal_iff.mpr ⟨reset_vfb_wf, rfl, latchesLegal_of_nil rfl, drawable_nil⟩

end Sys2Proof.Proofs
end

section
/-! SUPPORT. A command with its operands in range completes: it stays inside VFB (R97), so its effect is its answer; and the
step's answer in each of its cases (R73, R183, R184, R210). -/

namespace Sys2Proof.Machine

theorem operandFault_clear_eq_none {size : Byte} : operandFault (.clear size) = none ↔ size.toNat ≤ 100 := by
  simp [operandFault, operandChecks, clearChecks, firstFailure_eq_none_iff]

/-- A run of columns inside the buffer's row stays inside the buffer's two pages, its spill included (R97). -/
theorem orPlaceBound_le {w x y : Nat} {c : List Byte} (hx : 1 ≤ x) (hy : 1 ≤ y ∧ y ≤ 16) (hl : x + c.length ≤ w + 1) :
    orPlaceBound w x y c ≤ 2 * w := by
  have hpage := pageOf_range hy.1 hy.2
  by_cases hspill : hasSpill (pageOf y) (offsetOf y) = true
  · have hone : pageOf y = 1 := by
      have := ((hasSpill_eq_true _ _).mp hspill).2
      omega
    simp only [orPlaceBound, if_pos hspill, orPlaceBase, cellIndex]
    rw [hone]
    omega
  · have hpages : pageOf y = 1 ∨ pageOf y = 2 := by omega
    simp only [orPlaceBound, if_neg hspill, orPlaceBase, cellIndex]
    obtain hone | htwo := hpages
    · rw [hone]
      omega
    · rw [htwo]
      omega

/-- No command of the block reaches beyond VFB (R40, R97). -/
theorem cellBound_le_of_wellFormed {i : Instr} (h : wellFormed i = true) : cellBound i ≤ Config.vfbBytes := by
  obtain ⟨hchecks, hfits⟩ := wellFormed_iff.mp h
  rw [vfbBytes_eq]
  cases i with
  | placeColumn x y col => exact Nat.zero_le _
  | placeImage x y n c => exact Nat.zero_le _
  | clear size => exact operandFault_clear_eq_none.mp hchecks
  | orPlace w n x y c =>
    obtain ⟨hw, -, hx, hy, hextent⟩ := operandFault_orPlace_eq_none.mp hchecks
    have hlen : c.length = n.toNat := of_decide_eq_true hfits
    have hbound : orPlaceBound w.toNat x.toNat y.toNat c ≤ 2 * w.toNat := orPlaceBound_le hx.1 hy (hlen ▸ hextent)
    exact hbound.trans (Nat.mul_le_mul_left 2 hw.2)
  | flush w x =>
    obtain ⟨hw, -, -⟩ := operandFault_flush_eq_none.mp hchecks
    exact Nat.mul_le_mul_left 2 hw.2

/-- While the block is halted a command does nothing (R24). -/
theorem exec_of_halted {i : Instr} {s : State} (hs : s.fault = true) : exec i s = .next s := by
  rw [exec_eq_runCommand]
  exact runCommand_halted s hs

/-- A command whose checks pass and whose cells exist has its effect. -/
theorem exec_of_checks {i : Instr} {s : State} (hs : s.fault = false) (hchecks : operandFault i = none)
    (hbound : cellBound i ≤ Config.vfbBytes) : exec i s = .next (completed i s) := by
  rw [exec_eq_runCommand, runCommand_effect s hs hchecks, touching_of_le _ hbound]

/-- A command of the block has its effect. -/
theorem exec_of_wellFormed {i : Instr} {s : State} (hs : s.fault = false) (h : wellFormed i = true) :
    exec i s = .next (completed i s) :=
  exec_of_checks hs (wellFormed_iff.mp h).1 (cellBound_le_of_wellFormed h)

theorem step_of_resetPending {s : State} (h : s.resetPending = true) : step s = .next s.afterReset := if_pos h

theorem step_of_halted {s : State} (hreset : s.resetPending = false) (hfault : s.fault = true) :
    step s = .next s.discardPort := by
  simp only [step, hreset, hfault, Bool.false_eq_true, if_false, if_true]

/-- A cause the decoder answers is the fault the step takes, with a header or without (R70, R183). -/
theorem step_of_rejected {s : State} {c : Cause} {header : Option Instr} {rest : List Byte} (hs : ready s = true)
    (hd : decode s.commandBytes = .rejected c header rest) : step s = .next (takeFault c (s.consume rest)) := by
  obtain ⟨hreset, hfault⟩ := ready_iff.mp hs
  cases header with
  | none => simp only [step, hreset, hfault, hd, Bool.false_eq_true, if_false]
  | some i =>
    have hexec := exec_of_operandFault (s := s.consume rest) hfault (of_decode_badHeader hd).1
    simp only [step, hreset, hfault, hd, hexec, Bool.false_eq_true, if_false]

/-- A command the decoder answers completes. -/
theorem step_of_command_completed {s : State} {i : Instr} {rest : List Byte} (hs : ready s = true)
    (hd : decode s.commandBytes = .command i rest) : step s = .next (completed i (s.consume rest)) := by
  rw [step_of_command hs hd]
  exact exec_of_wellFormed (s := s.consume rest) (ready_iff.mp hs).2 (of_decode_command hd).1

end Sys2Proof.Machine
end

section
/-! SUPPORT. What a placement leaves on the reference display (R54): the picture of columns placed side by side, drawn column
by column (R110) or page by page (R111). -/

namespace Sys2Proof.Machine

/-- The page of a row in the arithmetic of R91. -/
theorem pageOf_eq {y : Nat} (h : 1 ≤ y) : pageOf y = (y - 1) / 8 + 1 := by
  simp only [pageOf, pageMap]
  split <;> simp only <;> omega

/-- The offset of a row in the arithmetic of R91. -/
theorem offsetOf_eq {y : Nat} (h : 1 ≤ y) : offsetOf y = (y - 1) % 8 := by
  simp only [offsetOf, pageMap]
  split <;> simp only <;> omega

/-- A column spills exactly from the rows 2 to 8 (R93). -/
theorem hasSpill_row_iff {y : Nat} (h : 1 ≤ y) : hasSpill (pageOf y) (offsetOf y) = true ↔ 2 ≤ y ∧ y ≤ 8 := by
  rw [hasSpill_eq_true, pageOf_eq h, offsetOf_eq h]
  omega

/-- The byte a column at row `y` contributes to page `p`, if any (R93). -/
theorem lookup_split (y : Nat) (col : Byte) (p : Nat) :
    (split y col).lookup p =
      if p = pageOf y then some (primaryByte (offsetOf y) col)
      else if hasSpill (pageOf y) (offsetOf y) = true ∧ p = pageOf y + 1 then some (spillByte (offsetOf y) col)
      else none := by
  unfold split
  by_cases hprimary : p = pageOf y
  · subst hprimary
    split <;> simp
  · have hne : (p == pageOf y) = false := beq_false_of_ne hprimary
    rw [if_neg hprimary]
    split
    next hspill =>
      by_cases hnext : p = pageOf y + 1
      · rw [if_pos ⟨hspill, hnext⟩]
        simp only [List.lookup, hne, beq_iff_eq.mpr hnext]
      · simp [List.lookup, hne, beq_false_of_ne hnext, hnext]
    next hspill => simp [List.lookup, hne, hspill]

/-- The cell (cx, p), which held `old`, after the columns `cols` were placed at the columns `x, x + 1, ..` at row `y`: the byte
its own column contributes to its page, if any. -/
def placedCell (x y : Nat) (cols : List Byte) (cx p : Nat) (old : Byte) : Byte :=
  if x ≤ cx then (cols[cx - x]?.bind fun col => (split y col).lookup p).getD old else old

theorem placedCell_nil (x y cx p : Nat) (old : Byte) : placedCell x y [] cx p old = old := by
  simp [placedCell]

/-- Outside its columns a placement changes nothing. -/
theorem placedCell_outside {x y : Nat} {cols : List Byte} {cx p : Nat} {old : Byte}
    (h : ¬ (x ≤ cx ∧ cx < x + cols.length)) :
    placedCell x y cols cx p old = old := by
  unfold placedCell
  split
  next hle => simp [List.getElem?_eq_none (show cols.length ≤ cx - x by omega)]
  next => rfl

theorem placedCell_inside {x y : Nat} {cols : List Byte} {cx p : Nat} {old : Byte}
    (h : x ≤ cx ∧ cx < x + cols.length) :
    placedCell x y cols cx p old = ((split y (cols.getD (cx - x) 0x00#8)).lookup p).getD old := by
  have hlt : cx - x < cols.length := by omega
  simp [placedCell, h.1, hlt]

/-- A placement is its first column, then the others one column further on. -/
theorem placedCell_cons (x y : Nat) (b : Byte) (cols : List Byte) (cx p : Nat) (old : Byte) :
    placedCell x y (b :: cols) cx p old = placedCell (x + 1) y cols cx p (placedCell x y [b] cx p old) := by
  obtain hlt | rfl | hgt := Nat.lt_trichotomy cx x
  · simp [placedCell, show ¬ x ≤ cx by omega, show ¬ x + 1 ≤ cx by omega]
  · simp [placedCell]
  · have hshift : cx - x = cx - (x + 1) + 1 := by omega
    rw [placedCell_outside (cols := [b]) (by simp only [List.length_cons, List.length_nil]; omega)]
    simp [placedCell, hgt.le, Nat.succ_le_of_lt hgt, hshift]

/-- The bytes a row's columns contribute to its page and, where there is a spill, to the next. -/
theorem placedCell_eq (x y : Nat) (cols : List Byte) (cx p : Nat) (old : Byte) :
    placedCell x y cols cx p old =
      if x ≤ cx ∧ cx < x + cols.length then
        if p = pageOf y then primaryByte (offsetOf y) (cols.getD (cx - x) 0x00#8)
        else if hasSpill (pageOf y) (offsetOf y) = true ∧ p = pageOf y + 1 then
          spillByte (offsetOf y) (cols.getD (cx - x) 0x00#8)
        else old
      else old := by
  split
  next hinside =>
    rw [placedCell_inside hinside, lookup_split]
    split_ifs <;> rfl
  next houtside => exact placedCell_outside houtside

/-- A single column's cells. -/
theorem placedCell_singleton (x y : Nat) (col : Byte) (cx p : Nat) (old : Byte) :
    placedCell x y [col] cx p old =
      if cx = x then
        if p = pageOf y then primaryByte (offsetOf y) col
        else if hasSpill (pageOf y) (offsetOf y) = true ∧ p = pageOf y + 1 then spillByte (offsetOf y) col
        else old
      else old := by
  have hinside : (x ≤ cx ∧ cx < x + [col].length) ↔ cx = x := by
    simp only [List.length_singleton]
    omega
  rw [placedCell_eq]
  simp only [hinside]
  split
  next heq => simp [heq]
  next => rfl

/-- Everything PLACE_COLUMN's operations do on any display (R110). -/
theorem run_columnOps (d : Display) {x y : Nat} (col : Byte) (hx : 1 ≤ x ∧ x ≤ 50) (hy : 1 ≤ y ∧ y ≤ 16) :
    ∃ d', d.run (columnOps x y col) = some d' ∧ d'.cursor = none ∧
      ∀ cx p, onDisplay cx p = true → d'.cellAt cx p = placedCell x y [col] cx p (d.cellAt cx p) := by
  obtain ⟨hprimary, hnext⟩ := onDisplay_pageOf hx hy
  simp only [columnOps, split, placedCell_singleton]
  by_cases hspill : hasSpill (pageOf y) (offsetOf y) = true
  · simp only [hspill, if_true, true_and, List.map_cons, List.map_nil, Display.run, Display.apply, hprimary,
      hnext hspill, Option.some.injEq, exists_eq_left']
    intro cx p hcell
    rw [cellAt_withCursor, cellAt_put _ _ (hnext hspill) hcell, cellAt_withCursor, cellAt_put _ _ hprimary hcell]
    by_cases hpage : p = pageOf y
    · simp [hpage]
    · simp [hpage, ite_and]
  · simp only [hspill, Bool.false_eq_true, if_false, if_true, false_and, true_and, List.map_cons, List.map_nil,
      Display.run, Display.apply, hprimary, Option.some.injEq, exists_eq_left']
    intro cx p hcell
    rw [cellAt_withCursor, cellAt_put _ _ hprimary hcell, ite_and]

theorem getD_cells (s : State) (a : Nat) {count k : Nat} (hk : k < count) :
    (s.cells a count)[k]?.getD 0x00#8 = s.cell (a + k) := by
  simp [State.cells, hk]

/-- A write run of the bytes that a function of the columns gives. -/
theorem run_streamRun_map {f : Byte → Byte} (hf : f 0x00#8 = 0x00#8) (c : List Byte) (d : Display) {x p : Nat}
    (h : onDisplay x p = true) (hl : x + c.length ≤ 51) :
    ∃ d', d.run (streamRun x p (c.map f)) = some d' ∧
      d'.cursor = (if x + c.length ≤ 50 then some (x + c.length, p) else none) ∧
      ∀ cx q, onDisplay cx q = true →
        d'.cellAt cx q = if q = p ∧ x ≤ cx ∧ cx < x + c.length then f (c.getD (cx - x) 0x00#8)
          else d.cellAt cx q := by
  have hrun := run_streamRun (c.map f) d x p h (by rwa [List.length_map])
  have hget (k : Nat) : (c.map f).getD k 0x00#8 = f (c.getD k 0x00#8) := by
    conv_lhs => rw [← hf]
    exact List.getD_map c _ f
  simpa only [List.length_map, hget] using hrun

/-- Everything PLACE_IMAGE's operations do on any display (R111). -/
theorem run_imageOps (d : Display) {x y : Nat} {c : List Byte} (hx : 1 ≤ x ∧ x ≤ 50) (hy : 1 ≤ y ∧ y ≤ 16)
    (hl : x + c.length ≤ 51) :
    ∃ d', d.run (imageOps x y c) = some d' ∧
      d'.cursor = (if x + c.length ≤ 50 then some (x + c.length, if y = 1 then 1 else 2) else none) ∧
      ∀ cx p, onDisplay cx p = true → d'.cellAt cx p = placedCell x y c cx p (d.cellAt cx p) := by
  obtain ⟨hprimary, hnext⟩ := onDisplay_pageOf hx hy
  have hrow := hasSpill_row_iff hy.1
  have hpage := pageOf_eq hy.1
  obtain ⟨d₁, hrun₁, hcursor₁, hcells₁⟩ := run_streamRun_map (primaryByte_zero (offsetOf y)) c d hprimary hl
  simp only [imageOps, placedCell_eq]
  by_cases hspill : hasSpill (pageOf y) (offsetOf y) = true
  · obtain ⟨d₂, hrun₂, hcursor₂, hcells₂⟩ :=
      run_streamRun_map (spillByte_zero (offsetOf y)) c d₁ (hnext hspill) hl
    have hlast : pageOf y + 1 = if y = 1 then 1 else 2 := by
      have := hrow.mp hspill
      split <;> omega
    simp only [hspill, if_true, true_and]
    refine ⟨d₂, by rw [run_append, hrun₁, Option.bind_some, hrun₂], hlast ▸ hcursor₂, fun cx p hcell => ?_⟩
    rw [hcells₂ cx p hcell, hcells₁ cx p hcell]
    by_cases hinside : x ≤ cx ∧ cx < x + c.length
    · by_cases hp : p = pageOf y
      · simp [hinside, hp]
      · simp [hinside, hp]
    · simp [hinside]
  · have hlast : pageOf y = if y = 1 then 1 else 2 := by
      have := mt hrow.mpr hspill
      split <;> omega
    simp only [hspill, Bool.false_eq_true, if_false, false_and, List.append_nil]
    refine ⟨d₁, hrun₁, hlast ▸ hcursor₁, fun cx p hcell => ?_⟩
    rw [hcells₁ cx p hcell]
    by_cases hinside : x ≤ cx ∧ cx < x + c.length
    · simp [hinside]
    · simp [hinside]

/-- A column of an image is a command of its own, `k` columns on from the image's first (R113). -/
theorem toNat_column {x : Byte} {k : Nat} (h : x.toNat + k ≤ 50) : (x + BitVec.ofNat 8 k).toNat = x.toNat + k := by
  simp only [BitVec.toNat_add, BitVec.toNat_ofNat]
  omega

/-- Everything the columns of an image do, placed one by one: they complete, and on any display they leave the image's
picture and no cursor (R113). -/
theorem execAll_columns {x y : Byte} (hx : 1 ≤ x.toNat) (hy : 1 ≤ y.toNat ∧ y.toNat ≤ 16) (c : List Byte) (k : Nat)
    (s : State) (d : Display) (hs : s.fault = false) (hl : x.toNat + k + c.length ≤ 51) :
    ∃ ops d', execAll ((c.zipIdx k).map fun (b, i) => .placeColumn (x + BitVec.ofNat 8 i) y b) s = .next (s.emit ops) ∧
      d.run ops = some d' ∧ (c ≠ [] ∨ d.cursor = none → d'.cursor = none) ∧
      ∀ cx p, onDisplay cx p = true →
        d'.cellAt cx p = placedCell (x.toNat + k) y.toNat c cx p (d.cellAt cx p) := by
  induction c generalizing k s d with
  | nil =>
    have hemit : s.emit [] = s := by simp [State.emit]
    exact ⟨[], d, by rw [hemit]; rfl, rfl, by simp, fun cx p _ => (placedCell_nil ..).symm⟩
  | cons b c ih =>
    rw [List.length_cons] at hl
    have hcol : (x + BitVec.ofNat 8 k).toNat = x.toNat + k := toNat_column (by omega)
    have hrange : 1 ≤ x.toNat + k ∧ x.toNat + k ≤ 50 := by omega
    have hwf : wellFormed (.placeColumn (x + BitVec.ofNat 8 k) y b) = true :=
      wellFormed_iff.mpr ⟨operandFault_placeColumn_eq_none.mpr ⟨hcol.symm ▸ hrange, hy⟩, rfl⟩
    have hfirst : exec (.placeColumn (x + BitVec.ofNat 8 k) y b) s =
        .next (s.emit (columnOps (x.toNat + k) y.toNat b)) := hcol ▸ exec_of_wellFormed hs hwf
    obtain ⟨d₁, hrun₁, hcursor₁, hcells₁⟩ := run_columnOps d b hrange hy
    obtain ⟨ops, d₂, hothers, hrun₂, hcursor₂, hcells₂⟩ :=
      ih (k + 1) (s.emit (columnOps (x.toNat + k) y.toNat b)) d₁ hs (by omega)
    refine ⟨columnOps (x.toNat + k) y.toNat b ++ ops, d₂, ?_, ?_, fun _ => hcursor₂ (.inr hcursor₁),
      fun cx p hcell => ?_⟩
    · simp only [List.zipIdx_cons, List.map_cons, execAll, hfirst]
      rw [hothers]
      simp [State.emit]
    · rw [run_append, hrun₁, Option.bind_some, hrun₂]
    · rw [hcells₂ cx p hcell, hcells₁ cx p hcell, placedCell_cons _ _ b c, Nat.add_assoc]

end Sys2Proof.Machine
end

section
/-! PROOFS. The framebuffer and the display: no step touches a cell outside VFB, direct placement keeps away from it, and the
pictures the placements and FLUSH leave. -/

namespace Sys2Proof.Proofs

open Machine

/-- Settles O34, by the cases of `step`: a reset, a halted block, and each answer of the decoder has its next state; for a
command it rests on `cellBound_le_of_wellFormed`. -/
theorem blockNeverStops : Obligations.BlockNeverStops := by
  intro s
  cases hreset : s.resetPending with
  | true => exact ⟨_, step_of_resetPending hreset⟩
  | false =>
    cases hfault : s.fault with
    | true => exact ⟨_, step_of_halted hreset hfault⟩
    | false =>
      have hready : ready s = true := ready_iff.mpr ⟨hreset, hfault⟩
      cases hdecode : decode s.commandBytes with
      | command i rest => exact ⟨_, step_of_command_completed hready hdecode⟩
      | rejected c header rest => exact ⟨_, step_of_rejected hready hdecode⟩
      | incomplete => exact ⟨_, step_of_incomplete hready hdecode⟩

/-- Settles O40: on any display both leave the picture `placedCell`. -/
theorem imageAndColumnsDrawTheSamePicture : Obligations.ImageAndColumnsDrawTheSamePicture := by
  intro x y n c s d hs hwf
  obtain ⟨hchecks, hfits⟩ := wellFormed_iff.mp hwf
  obtain ⟨hx, hy, hn, hextent⟩ := operandFault_placeImage_eq_none.mp hchecks
  have hlen : c.length = n.toNat := of_decide_eq_true hfits
  have hne : c ≠ [] := List.ne_nil_of_length_pos (by omega)
  obtain ⟨d₁, hrun₁, hcursor₁, hcells₁⟩ := run_imageOps (c := c) d hx hy (by omega)
  obtain ⟨ops', d₂, hexec₂, hrun₂, hcursor₂, hcells₂⟩ := execAll_columns hx.1 hy c 0 s d hs (by omega)
  refine ⟨_, _, _, ops', d₁, d₂, exec_of_wellFormed hs hwf, completed_emitted _ s, hexec₂, rfl, hrun₁, hrun₂,
    fun col page h1 h50 hp1 hp2 => ?_, hcursor₂ (.inl hne), hlen ▸ hcursor₁⟩
  have hcell : onDisplay col page = true := onDisplay_iff.mpr ⟨h1, h50, hp1, hp2⟩
  rw [hcells₁ col page hcell, hcells₂ col page hcell, Nat.add_zero]

/-- Settles O20, by the three answers of a command: none of them reads VFB, and the effect is an emission of operations that
the operands alone decide. -/
theorem directPlacementNeverReachesTheBuffer : Obligations.DirectPlacementNeverReachesTheBuffer := by
  intro i s t v k hdirect hexec
  have hbound : cellBound i ≤ Config.vfbBytes := by
    obtain ⟨x, y, col, rfl⟩ | ⟨x, y, n, c, rfl⟩ := hdirect <;> exact Nat.zero_le _
  have heffect : completed i { s with vfb := v, resets := k } = { completed i s with vfb := v, resets := k } := by
    obtain ⟨x, y, col, rfl⟩ | ⟨x, y, n, c, rfl⟩ := hdirect <;> rfl
  obtain ⟨hhalted, rfl⟩ | ⟨hs, c, hc, rfl⟩ | ⟨hs, hchecks, -, rfl⟩ := exec_next hexec
  · exact exec_of_halted hhalted
  · exact exec_of_operandFault hs hc
  · rw [← heffect]
    exact exec_of_checks hs hchecks hbound

/-- Settles O39: the picture of one column, its bytes read bit by bit. -/
theorem placeColumnReplacesWholeCells : Obligations.PlaceColumnReplacesWholeCells := by
  intro x y col s d hs hx1 hx50 hy1 hy16
  have hwf : wellFormed (.placeColumn x y col) = true :=
    wellFormed_iff.mpr ⟨operandFault_placeColumn_eq_none.mpr ⟨⟨hx1, hx50⟩, hy1, hy16⟩, rfl⟩
  obtain ⟨d', hrun, hcursor, hcells⟩ := run_columnOps d col ⟨hx1, hx50⟩ ⟨hy1, hy16⟩
  have hpage := pageOf_eq hy1
  have hoffset := offsetOf_eq hy1
  have hspill := hasSpill_row_iff hy1
  refine ⟨_, _, d', exec_of_wellFormed hs hwf, completed_emitted _ s, hrun, hcursor, fun cx p h1 h50 hp1 hp2 => ?_⟩
  rw [hcells cx p (onDisplay_iff.mpr ⟨h1, h50, hp1, hp2⟩), placedCell_singleton]
  refine ⟨fun hcx hp j hj => ?primary, fun hcx hy2 hy8 hp j hj => ?spill, fun houtside => ?outside⟩
  case primary =>
    rw [if_pos hcx, if_pos (hp.trans hpage.symm), primaryByte_bit _ _ hj, hoffset]
  case spill =>
    rw [if_pos hcx, if_neg (by omega), if_pos ⟨hspill.mpr ⟨hy2, hy8⟩, by omega⟩, spillByte_bit]
    by_cases hlow : j < y.toNat - 1
    · rw [show 8 - offsetOf y.toNat + j = j + 9 - y.toNat by omega]
      simp [hlow]
    · rw [BitVec.getLsbD_of_ge _ _ (by omega)]
      simp [hlow]
  case outside =>
    by_cases hcx : cx = x.toNat
    · rw [if_pos hcx, if_neg (by omega), if_neg (by rw [hspill]; omega)]
    · rw [if_neg hcx]

/-- Settles O41: the two write runs of FLUSH, one page each. -/
theorem flushRewritesItsRectangle : Obligations.FlushRewritesItsRectangle := by
  intro w x s d hs hwf
  obtain ⟨hw, hx, hextent⟩ := operandFault_flush_eq_none.mp (wellFormed_iff.mp hwf).1
  have hon {p : Nat} (hp : 1 ≤ p ∧ p ≤ 2) : onDisplay x.toNat p = true := onDisplay_iff.mpr ⟨hx.1, hx.2, hp⟩
  have hlen (a : Nat) : x.toNat + (s.cells a w.toNat).length ≤ 51 := by rwa [length_cells]
  obtain ⟨d₁, hrun₁, -, hcells₁⟩ := run_streamRun (s.cells 0 w.toNat) d x.toNat 1 (hon (by decide)) (hlen _)
  obtain ⟨d₂, hrun₂, -, hcells₂⟩ := run_streamRun (s.cells w.toNat w.toNat) d₁ x.toNat 2 (hon (by decide)) (hlen _)
  refine ⟨_, _, d₂, exec_of_wellFormed hs hwf, completed_emitted _ s, ?_, fun col page h1 h50 hp1 hp2 => ?_⟩
  · rw [commandOps, run_append, hrun₁, Option.bind_some, hrun₂]
  · have hcell : onDisplay col page = true := onDisplay_iff.mpr ⟨h1, h50, hp1, hp2⟩
    rw [hcells₂ col page hcell, hcells₁ col page hcell, length_cells, length_cells]
    by_cases hin : x.toNat ≤ col ∧ col < x.toNat + w.toNat
    · have hk : col - x.toNat < w.toNat := by omega
      obtain rfl | rfl : page = 1 ∨ page = 2 := by omega
      · simp [hin, getD_cells s _ hk]
      · simp [hin, getD_cells s _ hk]
    · simp [hin]

end Sys2Proof.Proofs
end

section
/-! SUPPORT. The decoder on a beginning of its bytes (R67, R73): an answer stands whatever arrives after it, and bytes that
end too early get none. -/

namespace Sys2Proof

open Machine (Cause)

/-! A format's decoder waits for every fixed operand (R62 to R66). -/

theorem decodeC_short : ∀ {bytes : List Byte}, bytes.length < 3 → decodeC bytes = .incomplete
  | [], _ | [_], _ | [_, _], _ => rfl

theorem decodeI_short : ∀ {bytes : List Byte}, bytes.length < 3 → decodeI bytes = .incomplete
  | [], _ | [_], _ | [_, _], _ => rfl

theorem decodeS_short : ∀ {bytes : List Byte}, bytes.length < 1 → decodeS bytes = .incomplete
  | [], _ => rfl

theorem decodeB_short : ∀ {bytes : List Byte}, bytes.length < 4 → decodeB bytes = .incomplete
  | [], _ | [_], _ | [_, _], _ | [_, _, _], _ => rfl

theorem decodeF_short : ∀ {bytes : List Byte}, bytes.length < 2 → decodeF bytes = .incomplete
  | [], _ | [_], _ => rfl

/-- After the opcode, fewer bytes than the format's fixed operands are waited on, whatever they are (R182). -/
theorem decode_header_short {i : Instr} {bytes : List Byte} (h : bytes.length < (fixedOperands i).length) :
    decode (opcodeByte i :: bytes) = .incomplete := by
  cases i with
  | placeColumn x y col => exact decodeC_short h
  | placeImage x y n c => exact decodeI_short h
  | clear size => exact decodeS_short h
  | orPlace w n x y c => exact decodeB_short h
  | flush w x => exact decodeF_short h

theorem decode_take_of_lt_headerLength {i : Instr} {k : Nat} (h : k < headerLength i) :
    decode ((encode i).take k) = .incomplete := by
  cases k with
  | zero => rw [List.take_zero, decode_nil]
  | succ k =>
    have hk : k < (fixedOperands i).length := by
      unfold headerLength at h
      omega
    exact decode_header_short ((List.length_take_le k _).trans_lt hk)

/-! An answer other than `incomplete` is decided by the bytes it takes. -/

theorem decode_append_of_command {bytes rest : List Byte} {i : Instr} (h : decode bytes = .command i rest)
    (more : List Byte) : decode (bytes ++ more) = .command i (rest ++ more) := by
  obtain ⟨hwf, rfl⟩ := of_decode_command h
  rw [List.append_assoc, decode_encode_append hwf]

theorem decode_append_of_rejected {bytes rest : List Byte} {c : Cause} {header : Option Instr}
    (h : decode bytes = .rejected c header rest) (more : List Byte) :
    decode (bytes ++ more) = .rejected c header (rest ++ more) := by
  cases header with
  | none =>
    obtain ⟨rfl, op, hop, rfl⟩ := of_decode_noHeader h
    rw [List.cons_append, decode_reserved hop]
  | some i =>
    obtain ⟨hc, hp, rfl⟩ := of_decode_badHeader h
    rw [List.append_assoc, decode_badHeader_append hc hp]

/-- A command that ends with the last byte there is was incomplete before it (R73). -/
theorem incomplete_of_decode_append {bytes missing : List Byte} {i : Instr} (hmissing : missing ≠ [])
    (h : decode (bytes ++ missing) = .command i []) : decode bytes = .incomplete := by
  cases hbytes : decode bytes with
  | command j rest =>
    rw [decode_append_of_command hbytes] at h
    injection h with _ hrest
    exact absurd (List.append_eq_nil_iff.mp hrest).2 hmissing
  | rejected c header rest =>
    rw [decode_append_of_rejected hbytes] at h
    cases h
  | incomplete => rfl

theorem decode_take_of_lt_formatLength {i : Instr} {k : Nat} (hwf : wellFormed i = true) (hk : k < formatLength i) :
    decode ((encode i).take k) = .incomplete := by
  have hwhole : decode ((encode i).take k ++ (encode i).drop k) = .command i [] := by
    rw [List.take_append_drop, ← List.append_nil (encode i)]
    exact decode_encode_append hwf []
  refine incomplete_of_decode_append (fun hnil => ?_) hwhole
  have hle : (encode i).length ≤ k := List.drop_eq_nil_iff.mp hnil
  rw [length_encode (wellFormed_iff.mp hwf).2] at hle
  omega

/-- The bytes that decode to a command with nothing after it are its encoding (R74). -/
theorem decode_eq_command_nil_iff {i : Instr} (hwf : wellFormed i = true) (bytes : List Byte) :
    decode bytes = .command i [] ↔ bytes = encode i := by
  constructor
  · intro h
    rw [(of_decode_command h).2, List.append_nil]
  · rintro rfl
    rw [← List.append_nil (encode i)]
    exact decode_encode_append hwf []

end Sys2Proof
end

section
/-! SUPPORT. The wait (R73): bytes latched and bytes still on the port are the same command bytes, and the same count. -/

namespace Sys2Proof.Machine

variable (s : State)

/-- With every byte latched there is nothing left to latch. -/
@[simp] theorem latchPort_latchPort : s.latchPort.latchPort = s.latchPort := by
  simp [State.latchPort, State.commandBytes]

@[simp] theorem commandBytes_latchPort : s.latchPort.commandBytes = s.commandBytes := by
  simp [State.commandBytes]

@[simp] theorem commandBytes_deliver (bytes : List Byte) : (s.deliver bytes).commandBytes = s.commandBytes ++ bytes := by
  simp [State.commandBytes]

/-- A wait before a delivery is no matter for the wait after it. -/
theorem latchPort_deliver_latchPort (bytes : List Byte) :
    (s.latchPort.deliver bytes).latchPort = (s.deliver bytes).latchPort := by
  simp [State.latchPort, State.deliver, State.commandBytes, Nat.add_assoc]

/-- Nor for a command or fault that ends inside the bytes delivered after it. -/
theorem consume_deliver_latchPort {bytes front rest : List Byte} (h : bytes = front ++ rest) :
    (s.latchPort.deliver bytes).consume rest = (s.deliver bytes).consume rest := by
  subst h
  have hcount : s.position + s.port.length + ((front ++ rest).length - rest.length) =
      s.position + ((s.port ++ (front ++ rest)).length - rest.length) := by
    simp only [List.length_append]
    omega
  simpa [State.consume, State.latchPort, State.deliver] using hcount

end Sys2Proof.Machine
end

section
/-! PROOFS. The encoding: what the decoder answers on each kind of bytes, and the wait for the bytes of a command. -/

namespace Sys2Proof.Proofs

open Machine

/-- Settles O2: the law `decode_encode_append`. -/
theorem encodedCommandDecodesToItself : Obligations.EncodedCommandDecodesToItself :=
  fun _ rest hwf => decode_encode_append hwf rest

/-- Settles O3: the answers are the cases of `DecodesTo`, and a command's answer gives its bytes back. -/
theorem decoderAnswersExactlyOneResult : Obligations.DecoderAnswersExactlyOneResult := by
  refine ⟨fun bs => ?answers, fun bs bs' i rest h h' => ?injective, fun i => decode_eq_command_nil_iff⟩
  case answers =>
    cases hd : decode bs with
    | command i rest => exact .inl ⟨i, rest, rfl, of_decode_command hd⟩
    | rejected c header rest =>
      cases header with
      | none =>
        obtain ⟨rfl, op, hop, hbytes⟩ := of_decode_noHeader hd
        exact .inr (.inl ⟨op, rest, rfl, hbytes, hop⟩)
      | some i => exact .inr (.inr (.inl ⟨i, c, rest, rfl, of_decode_badHeader hd⟩))
    | incomplete => exact .inr (.inr (.inr rfl))
  case injective =>
    rw [(of_decode_command h).2, (of_decode_command h').2]

/-- Settles O10, by the decoder's answer on all the bytes: a command or a fault ends inside the second piece, since the first
was incomplete. -/
theorem deliveryInPiecesGivesTheSameAnswer : Obligations.DeliveryInPiecesGivesTheSameAnswer := by
  intro s t bytes hready hpart hstep
  obtain rfl : s.latchPort = t := by
    rw [step_of_incomplete hready hpart] at hstep
    injection hstep
  have hone : ready (s.deliver bytes) = true := hready
  have htwo : ready (s.latchPort.deliver bytes) = true := hready
  have hbytes : (s.latchPort.deliver bytes).commandBytes = (s.deliver bytes).commandBytes := by simp
  have hwhole : (s.deliver bytes).commandBytes = s.commandBytes ++ bytes := commandBytes_deliver s bytes
  cases hd : decode (s.deliver bytes).commandBytes with
  | command i rest =>
    obtain ⟨front, hsplit⟩ := split_of_decode_command hpart (hwhole ▸ hd)
    rw [step_of_command hone hd, step_of_command htwo (hbytes ▸ hd), consume_deliver_latchPort s hsplit]
  | rejected c header rest =>
    obtain ⟨front, hsplit⟩ := split_of_decode_rejected hpart (hwhole ▸ hd)
    rw [step_of_rejected hone hd, step_of_rejected htwo (hbytes ▸ hd), consume_deliver_latchPort s hsplit]
  | incomplete =>
    rw [step_of_incomplete hone hd, step_of_incomplete htwo (hbytes ▸ hd), latchPort_deliver_latchPort]

/-- Settles O4: the law `decode_badHeader_append`. -/
theorem badHeaderRejectedBeforePayload : Obligations.BadHeaderRejectedBeforePayload :=
  fun _ _ rest hc hp => decode_badHeader_append hc hp rest

/-- Settles O5: the first cut because an answer would stand on the whole command too, the second by the format's count of
operands. -/
theorem commandCutShortIsIncomplete : Obligations.CommandCutShortIsIncomplete :=
  fun _ _ => ⟨decode_take_of_lt_formatLength, decode_take_of_lt_headerLength⟩

/-- Settles O9: the wait is `latchPort`, which a second wait does not change. -/
theorem incompleteCommandWaits : Obligations.IncompleteCommandWaits := by
  intro s hready hpart
  have hready' : ready s.latchPort = true := hready
  have hpart' : decode s.latchPort.commandBytes = .incomplete := (commandBytes_latchPort s).symm ▸ hpart
  refine ⟨s.latchPort, rfl, step_of_incomplete hready hpart, ?again, fun hne => ?unfinished⟩
  case again =>
    rw [step_of_incomplete hready' hpart', latchPort_latchPort]
  case unfinished =>
    have hlatched : s.latchPort.latched ≠ [] := hne
    simp only [finished, decide_eq_false hlatched, Bool.and_false, Bool.false_and]

/-- Settles O1: each word is the encoding of its command. -/
theorem formatWordsDecode : Obligations.FormatWordsDecode :=
  ⟨decode_encode_append (i := .placeColumn 0x03#8 0x04#8 0xB7#8) (by decide) [],
    decode_encode_append (i := .placeImage 0x0A#8 0x06#8 0x02#8 [0xFF#8, 0x81#8]) (by decide) [],
    decode_encode_append (i := .clear 0x10#8) (by decide) [],
    decode_encode_append (i := .orPlace 0x08#8 0x02#8 0x03#8 0x06#8 [0xFF#8, 0x81#8]) (by decide) [],
    decode_encode_append (i := .flush 0x08#8 0x0A#8) (by decide) []⟩

/-- Settles O6: the decoder rejects the byte alone, and `consume` counts that one byte. -/
theorem reservedOpcodeFaultsAtOnce : Obligations.ReservedOpcodeFaultsAtOnce := by
  intro s op rest hboundary hport hop
  obtain ⟨hready, hlatched⟩ : ready s = true ∧ s.latched = [] := by simpa [atBoundary] using hboundary
  have hdecode : decode s.commandBytes = .rejected .illegalOpcode none rest := by
    rw [State.commandBytes, hlatched, List.nil_append, hport]
    exact decode_reserved (hop.imp_right And.left) rest
  have hposition : s.position + (s.port.length - rest.length) = s.position + 1 :=
    position_of_split (front := [op]) s.position hport
  refine ⟨_, step_of_rejected hready hdecode, ?_⟩
  simp only [takeFault, setFault, State.consume, hposition, causeCode]

end Sys2Proof.Proofs
end

section
/-! SUPPORT. The splitter as arithmetic (R93, R95): its two bytes are the two halves of the shifted column, and the list of its
contributions by cases and by membership. -/

namespace Sys2Proof.Machine

/-- The primary byte is the low byte of the shifted column. -/
theorem toNat_primaryByte (offset : Nat) (c : Byte) : (primaryByte offset c).toNat = c.toNat * 2 ^ offset % 256 := by
  rw [primaryByte_eq_shiftLeft, BitVec.toNat_shiftLeft, Nat.shiftLeft_eq]

/-- The spill byte is what the shifted column has above its low byte. -/
theorem toNat_spillByte {offset : Nat} (h : offset ≤ 8) (c : Byte) :
    (spillByte offset c).toNat = c.toNat * 2 ^ offset / 256 := by
  have hpage : 256 = 2 ^ (8 - offset) * 2 ^ offset := by rw [← Nat.pow_add, Nat.sub_add_cancel h]
  rw [spillByte_eq_shiftRight, BitVec.toNat_ushiftRight, Nat.shiftRight_eq_div_pow, hpage,
    Nat.mul_div_mul_right _ _ (Nat.two_pow_pos offset)]

theorem toNat_primaryByte_add_spillByte {offset : Nat} (h : offset ≤ 8) (c : Byte) :
    (primaryByte offset c).toNat + 256 * (spillByte offset c).toNat = c.toNat * 2 ^ offset := by
  rw [toNat_primaryByte, toNat_spillByte h, Nat.mod_add_div]

/-- The rows of the primary page above the column are empty. -/
theorem toNat_primaryByte_mod {offset : Nat} (h : offset ≤ 8) (c : Byte) :
    (primaryByte offset c).toNat % 2 ^ offset = 0 := by
  rw [toNat_primaryByte, Nat.mod_mod_of_dvd _ (Nat.pow_dvd_pow 2 h : 2 ^ offset ∣ 2 ^ 8), Nat.mul_mod_left]

/-- The rows of the spill page below the column are empty. -/
theorem toNat_spillByte_lt {offset : Nat} (h : offset ≤ 8) (c : Byte) : (spillByte offset c).toNat < 2 ^ offset := by
  rw [toNat_spillByte h]
  exact Nat.div_lt_of_lt_mul (Nat.mul_lt_mul_of_pos_right c.isLt (Nat.two_pow_pos offset))

/-- With no offset the primary byte is the column. -/
@[simp] theorem primaryByte_offset_zero (c : Byte) : primaryByte 0 c = c := rfl

/-- In the rows 2 to 8 the column reaches into the second page. -/
theorem split_of_spill {y : Nat} (h2 : 2 ≤ y) (h8 : y ≤ 8) (col : Byte) :
    split y col = [(1, primaryByte (y - 1) col), (2, spillByte (y - 1) col)] := by
  have hrow : 1 ≤ y := by omega
  have hpage : pageOf y = 1 := by rw [pageOf_eq hrow]; omega
  have hoffset : offsetOf y = y - 1 := by rw [offsetOf_eq hrow]; omega
  rw [split, if_pos ((hasSpill_row_iff hrow).mpr ⟨h2, h8⟩), hpage, hoffset]

/-- In every other row it has its primary page alone. -/
theorem split_of_no_spill {y : Nat} (h1 : 1 ≤ y) (h : ¬ (2 ≤ y ∧ y ≤ 8)) (col : Byte) :
    split y col = [((y - 1) / 8 + 1, primaryByte ((y - 1) % 8) col)] := by
  rw [split, if_neg (mt (hasSpill_row_iff h1).mp h), pageOf_eq h1, offsetOf_eq h1]

theorem mem_split {y : Nat} {col : Byte} {p : Nat} {b : Byte} :
    (p, b) ∈ split y col ↔
      (p = pageOf y ∧ b = primaryByte (offsetOf y) col) ∨
        (hasSpill (pageOf y) (offsetOf y) = true ∧ p = pageOf y + 1 ∧ b = spillByte (offsetOf y) col) := by
  by_cases h : hasSpill (pageOf y) (offsetOf y) = true <;> simp [split, h]

/-- A bit of the contribution to page `p` is a bit of the primary byte on the primary page, and of the spill byte on the page
after it. -/
theorem exists_mem_split_bit {y : Nat} {col : Byte} {p j : Nat} :
    (∃ b, (p, b) ∈ split y col ∧ b.getLsbD j = true) ↔
      (p = pageOf y ∧ (primaryByte (offsetOf y) col).getLsbD j = true) ∨
        (hasSpill (pageOf y) (offsetOf y) = true ∧ p = pageOf y + 1 ∧ (spillByte (offsetOf y) col).getLsbD j = true) := by
  simp only [mem_split, or_and_right, exists_or, and_assoc, exists_and_left, exists_eq_left]

/-- On its own page a column shows, at row `r`, its bit `r - y` from its row down (R96). -/
theorem primaryByte_bit_row {y r : Nat} (hy : 1 ≤ y) (hr : 1 ≤ r) (hpage : (r - 1) / 8 = (y - 1) / 8) (col : Byte) :
    (primaryByte (offsetOf y) col).getLsbD ((r - 1) % 8) = true ↔ y ≤ r ∧ col.getLsbD (r - y) = true := by
  have hrow : offsetOf y ≤ (r - 1) % 8 ↔ y ≤ r := by rw [offsetOf_eq hy]; omega
  have hbit : (r - 1) % 8 - offsetOf y = r - y := by rw [offsetOf_eq hy]; omega
  rw [primaryByte_bit _ _ (Nat.mod_lt _ (by decide)), hbit, Bool.and_eq_true, decide_eq_true_iff, hrow]

/-- On the page after it, its bit `r - y` too (R96). -/
theorem spillByte_bit_row {y r : Nat} (hy : 1 ≤ y) (hpage : (r - 1) / 8 = (y - 1) / 8 + 1) (col : Byte) :
    (spillByte (offsetOf y) col).getLsbD ((r - 1) % 8) = col.getLsbD (r - y) := by
  have hbit : 8 - offsetOf y + (r - 1) % 8 = r - y := by rw [offsetOf_eq hy]; omega
  rw [spillByte_bit, hbit]

end Sys2Proof.Machine
end

section
/-! PROOFS. The coordinate map and the splitter: the page map as arithmetic, the halves of a shifted column, and the pixel rows
a column's contributions paint. -/

namespace Sys2Proof.Proofs

open Machine

/-- Settles O14: the two bytes are the remainder and the quotient of the shifted column by 256. -/
theorem shiftedColumnLosesNoBit : Obligations.ShiftedColumnLosesNoBit := by
  intro col
  refine ⟨fun offset _ h7 => ?halves, fun y hy => ?unshifted, fun y h2 h8 => split_of_spill h2 h8 col,
    fun y h10 h16 => ?clipped⟩
  case halves =>
    have h8 : offset ≤ 8 := by omega
    exact ⟨toNat_primaryByte_add_spillByte h8 col, toNat_primaryByte_mod h8 col, toNat_spillByte_lt h8 col⟩
  case unshifted =>
    have hoffset : (y - 1) % 8 = 0 := by omega
    rw [split_of_no_spill (by omega) (by omega), hoffset, primaryByte_offset_zero]
  case clipped =>
    have hpage : (y - 1) / 8 + 1 = 2 := by omega
    have hoffset : (y - 1) % 8 = y - 9 := by omega
    rw [split_of_no_spill (by omega) (by omega), hpage, hoffset]

/-- Settles O15, by the page a bit lies in: the column's own, or the one after it, where bit `r - y` exists only for a column
that spills. -/
theorem contributionsPaintTheColumnsRows : Obligations.ContributionsPaintTheColumnsRows := by
  intro y r col hy1 hy16 hr1 hr16
  rw [exists_mem_split_bit, hasSpill_row_iff hy1, pageOf_eq hy1]
  constructor
  · rintro (⟨hpage, hbit⟩ | ⟨-, hpage, hbit⟩)
    · obtain ⟨hrow, hbit⟩ := (primaryByte_bit_row hy1 hr1 (by omega) col).mp hbit
      exact ⟨hrow, by omega, hbit⟩
    · rw [spillByte_bit_row hy1 (by omega)] at hbit
      have hheight : r - y < 8 := BitVec.lt_of_getLsbD hbit
      exact ⟨by omega, by omega, hbit⟩
  · rintro ⟨hrow, hheight, hbit⟩
    by_cases hpage : (r - 1) / 8 = (y - 1) / 8
    · exact .inl ⟨by omega, (primaryByte_bit_row hy1 hr1 hpage col).mpr ⟨hrow, hbit⟩⟩
    · have hnext : (r - 1) / 8 = (y - 1) / 8 + 1 := by omega
      exact .inr ⟨by omega, by omega, (spillByte_bit_row hy1 hnext col).trans hbit⟩

/-- Settles O13: the laws `pageOf_eq` and `offsetOf_eq`. -/
theorem pageMapIsRowArithmetic : Obligations.PageMapIsRowArithmetic := by
  intro y hy
  have hmap : pageMap y = ((y - 1) / 8 + 1, (y - 1) % 8) := Prod.ext (pageOf_eq hy) (offsetOf_eq hy)
  refine ⟨hmap, ?_⟩
  rw [hmap]
  dsimp only
  omega

end Sys2Proof.Proofs
end

section
/-! SUPPORT. One step at a command boundary, where the port alone holds the command's bytes: a command of the block runs, a bad
header takes its fault (R74, R182, R183). -/

namespace Sys2Proof.Machine

theorem atBoundary_iff {s : State} : atBoundary s = true ↔ ready s = true ∧ s.latched = [] := by
  simp only [atBoundary, Bool.and_eq_true, decide_eq_true_eq]

/-- At a command boundary the port holds every byte there is (R22). -/
theorem commandBytes_of_atBoundary {s : State} (h : atBoundary s = true) : s.commandBytes = s.port := by
  rw [State.commandBytes, (atBoundary_iff.mp h).2, List.nil_append]

theorem fault_of_atBoundary {s : State} (h : atBoundary s = true) : s.fault = false :=
  (ready_iff.mp (atBoundary_iff.mp h).1).2

/-- The bytes of a command of the block have its effect, and its format's length is counted (R23, R67). -/
theorem step_of_encode {s : State} {i : Instr} {rest : List Byte} (hs : atBoundary s = true) (hwf : wellFormed i = true)
    (hport : s.port = encode i ++ rest) :
    step s = .next (completed i { s with port := rest, position := s.position + formatLength i }) := by
  rw [Proofs.stepOnACommandsBytesAdvancesByItsLength s i rest hs hwf hport]
  exact exec_of_wellFormed (fault_of_atBoundary hs) hwf

/-- A header that fails a check takes that check's fault, and only the header is counted (R183). -/
theorem step_of_badHeader {s : State} {i : Instr} {c : Cause} {rest : List Byte} (hs : atBoundary s = true)
    (hc : operandFault i = some c) (hp : payload i = []) (hport : s.port = encode i ++ rest) :
    step s = .next (takeFault c { s with port := rest, position := s.position + headerLength i }) := by
  obtain ⟨hready, hlatched⟩ := atBoundary_iff.mp hs
  have hdecode : decode s.commandBytes = .rejected c (some i) rest := by
    rw [commandBytes_of_atBoundary hs, hport]
    exact decode_badHeader_append hc hp rest
  have hlength : (encode i).length = headerLength i := by
    rw [encode, hp, List.append_nil, List.length_cons, Nat.add_comm, headerLength]
  rw [step_of_rejected hready hdecode, State.consume, position_of_split s.position hport, hlength, hlatched]

end Sys2Proof.Machine
end

section
/-! SUPPORT. What a row makes of a column, whatever the column: one analysis of the rows for PLACE_COLUMN, which places the
results of one column, and PLACE_IMAGE, which streams those of many (R91, R93, R98). -/

namespace Sys2Proof.Machine

/-- The contributions of row `y` (R93): each page it places bytes on, with the byte it makes of a column there. -/
def rowContributions (y : Nat) : List (Nat × (Byte → Byte)) :=
  (pageOf y, primaryByte (offsetOf y)) ::
    if hasSpill (pageOf y) (offsetOf y) then [(pageOf y + 1, spillByte (offsetOf y))] else []

/-- PLACE_COLUMN writes every contribution of its row at its column (R110). -/
theorem columnOps_eq_map (x y : Nat) (col : Byte) :
    columnOps x y col = (rowContributions y).map fun (page, f) => .writePixelAt x page (f col) := by
  unfold columnOps split rowContributions
  split <;> rfl

/-- PLACE_IMAGE streams its columns once for every contribution of its row (R111). -/
theorem imageOps_eq_flatMap (x y : Nat) (c : List Byte) :
    imageOps x y c = (rowContributions y).flatMap fun (page, f) => streamRun x page (c.map f) := by
  unfold imageOps rowContributions
  split
  · simp only [List.flatMap_cons, List.flatMap_nil, List.append_nil]
  · rfl

theorem streamRun_map (x page : Nat) (f : Byte → Byte) (c : List Byte) :
    streamRun x page (c.map f) = .setCursor x page :: c.map fun b => .writeData (f b) := by
  rw [streamRun, List.map_map]
  rfl

/-- The contributions in the arithmetic of R91. -/
theorem rowContributions_eq {y : Nat} (h : 1 ≤ y) :
    rowContributions y = ((y - 1) / 8 + 1, primaryByte ((y - 1) % 8)) ::
      if (y - 1) % 8 ≠ 0 ∧ (y - 1) / 8 + 2 ≤ 2 then [((y - 1) / 8 + 2, spillByte ((y - 1) % 8))] else [] := by
  have hspill : hasSpill ((y - 1) / 8 + 1) ((y - 1) % 8) = true ↔ (y - 1) % 8 ≠ 0 ∧ (y - 1) / 8 + 2 ≤ 2 := by
    rw [hasSpill_eq_true]
    omega
  simp only [rowContributions, pageOf_eq h, offsetOf_eq h, hspill]

/-- The primary byte as a product (R98). -/
theorem primaryByte_eq_mul (offset : Nat) : primaryByte offset = fun b => BitVec.ofNat 8 (b.toNat * 2 ^ offset) :=
  funext fun b => BitVec.eq_of_toNat_eq (by rw [toNat_primaryByte, BitVec.toNat_ofNat])

/-- The spill byte as a quotient (R98). -/
theorem spillByte_eq_div (offset : Nat) : spillByte offset = fun b => BitVec.ofNat 8 (b.toNat / 2 ^ (8 - offset)) :=
  funext fun b => by rw [spillByte, trunc8, Nat.shiftRight_eq_div_pow]

/-- In the rows 1 and 9 a column is its own contribution. -/
theorem rowContributions_aligned {y : Nat} (h : y = 1 ∨ y = 9) : rowContributions y = [((y - 1) / 8 + 1, id)] := by
  have hoffset : (y - 1) % 8 = 0 := by omega
  rw [rowContributions_eq (by omega), hoffset, if_neg fun hspill => hspill.1 rfl]
  rfl

/-- In the rows 2 to 8 it is cut between the two pages. -/
theorem rowContributions_spill {y : Nat} (h2 : 2 ≤ y) (h8 : y ≤ 8) :
    rowContributions y = [(1, fun b => BitVec.ofNat 8 (b.toNat * 2 ^ (y - 1))),
      (2, fun b => BitVec.ofNat 8 (b.toNat / 2 ^ (9 - y)))] := by
  have hpage : (y - 1) / 8 = 0 := by omega
  have hoffset : (y - 1) % 8 = y - 1 := by omega
  have hrows : 8 - (y - 1) = 9 - y := by omega
  rw [rowContributions_eq (by omega), hpage, hoffset, if_pos (by omega), primaryByte_eq_mul, spillByte_eq_div, hrows]

/-- In the rows 10 to 16 it is cut by the bottom of the display. -/
theorem rowContributions_clipped {y : Nat} (h10 : 10 ≤ y) (h16 : y ≤ 16) :
    rowContributions y = [(2, fun b => BitVec.ofNat 8 (b.toNat * 2 ^ (y - 9)))] := by
  have hpage : (y - 1) / 8 = 1 := by omega
  have hoffset : (y - 1) % 8 = y - 9 := by omega
  rw [rowContributions_eq (by omega), hpage, hoffset, if_neg (by omega), primaryByte_eq_mul]

end Sys2Proof.Machine
end

section
/-! PROOFS. Direct placement: PLACE_COLUMN and PLACE_IMAGE with their operands in range, and each from its bytes. -/

namespace Sys2Proof.Proofs

open Machine

/-- Settles O16, by the three kinds of row. -/
theorem placeColumnEmitsItsContributions : Obligations.PlaceColumnEmitsItsContributions := by
  intro x y col s hs hx1 hx50 hy1 hy16
  have hwf : wellFormed (.placeColumn x y col) = true :=
    wellFormed_iff.mpr ⟨operandFault_placeColumn_eq_none.mpr ⟨⟨hx1, hx50⟩, hy1, hy16⟩, rfl⟩
  rw [exec_of_wellFormed hs hwf, completed, commandOps, columnOps_eq_map, State.emit]
  by_cases haligned : y.toNat = 1 ∨ y.toNat = 9
  · rw [if_pos haligned, rowContributions_aligned haligned]
    rfl
  · rw [if_neg haligned]
    by_cases hupper : y.toNat ≤ 8
    · rw [if_pos hupper, rowContributions_spill (by omega) hupper]
      rfl
    · rw [if_neg hupper, rowContributions_clipped (by omega) hy16]
      rfl

/-- Settles O18, by the three kinds of row. -/
theorem placeImageStreamsItsPages : Obligations.PlaceImageStreamsItsPages := by
  intro x y n c s hs hlen hx1 hx50 hy1 hy16 hn hextent
  have hwf : wellFormed (.placeImage x y n c) = true :=
    wellFormed_iff.mpr ⟨operandFault_placeImage_eq_none.mpr ⟨⟨hx1, hx50⟩, ⟨hy1, hy16⟩, hn, hextent⟩, decide_eq_true hlen⟩
  rw [exec_of_wellFormed hs hwf, completed, commandOps, imageOps_eq_flatMap, State.emit]
  by_cases haligned : y.toNat = 1 ∨ y.toNat = 9
  · rw [if_pos haligned, rowContributions_aligned haligned]
    simp [streamRun_map]
  · rw [if_neg haligned]
    by_cases hupper : y.toNat ≤ 8
    · rw [if_pos hupper, rowContributions_spill (by omega) hupper]
      simp [streamRun_map]
    · rw [if_neg hupper, rowContributions_clipped (by omega) hy16]
      simp [streamRun_map]

/-- Settles O17: a header that fails a check takes the fault of the table's chain; one that fails none is a whole command. -/
theorem placeColumnFollowsItsRule : Obligations.PlaceColumnFollowsItsRule := by
  intro s x y col rest hs hport
  have hbytes : s.port = encode (.placeColumn x y col) ++ rest := hport
  simp only [not_and_or, not_le]
  cases hchecks : operandFault (.placeColumn x y col) with
  | some c =>
    refine ⟨_, step_of_badHeader hs hchecks rfl hbytes, rfl, rfl, rfl, ?_⟩
    have hchain := (placeColumnChecks_failure x y).symm.trans hchecks
    split_ifs at hchain ⊢ <;> cases hchain
    all_goals exact ⟨rfl, rfl, rfl⟩
  | none =>
    obtain ⟨hx, hy⟩ := operandFault_placeColumn_eq_none.mp hchecks
    have hwf : wellFormed (.placeColumn x y col) = true := wellFormed_iff.mpr ⟨hchecks, rfl⟩
    refine ⟨_, step_of_encode hs hwf hbytes, rfl, rfl, rfl, ?_⟩
    rw [if_neg (by omega), if_neg (by omega)]
    refine ⟨fault_of_atBoundary hs, rfl, (atBoundary_iff.mp hs).2, ?_⟩
    rw [completed_emitted, commandOps, columnOps_eq_map, rowContributions_eq hy.1]
    by_cases hoffset : (y.toNat - 1) % 8 = 0
    · simp [hoffset]
    · by_cases hspill : (y.toNat - 1) / 8 + 2 ≤ 2
      · simp [hoffset, hspill, primaryByte, spillByte, trunc8]
      · simp [hoffset, hspill, primaryByte, trunc8]

/-- Settles O19: a header that fails a check takes the fault of the table's chain; after one that fails none, part of the payload
is waited for and a whole payload makes a command. -/
theorem placeImageFollowsItsRule : Obligations.PlaceImageFollowsItsRule := by
  intro s x y n bytes hs hport
  cases hchecks : operandFault (.placeImage x y n []) with
  | some c =>
    refine ⟨_, step_of_badHeader hs hchecks rfl hport, rfl, ?_⟩
    have hchain := (placeImageChecks_failure x y n).symm.trans hchecks
    split_ifs at hchain ⊢ <;> cases hchain
    all_goals exact ⟨rfl, rfl, rfl, rfl, rfl⟩
  | none =>
    obtain ⟨hx, hy, hn, hextent⟩ := operandFault_placeImage_eq_none.mp hchecks
    by_cases hlen : bytes.length < n.toNat
    · have hdecode : decode s.commandBytes = .incomplete := by
        rw [commandBytes_of_atBoundary hs, hport]
        exact (afterHeader_of_none hchecks).trans (takePayload_short hlen)
      refine ⟨_, step_of_incomplete (atBoundary_iff.mp hs).1 hdecode, rfl, ?_⟩
      rw [if_neg (by omega), if_neg (by omega), if_neg (by omega), if_neg (by omega), if_pos hlen]
      exact ⟨fault_of_atBoundary (s := s) hs, rfl, rfl⟩
    · have hwf : wellFormed (.placeImage x y n (bytes.take n.toNat)) = true :=
        wellFormed_iff.mpr ⟨hchecks, decide_eq_true (List.length_take_of_le (Nat.le_of_not_lt hlen))⟩
      have hbytes : s.port = encode (.placeImage x y n (bytes.take n.toNat)) ++ bytes.drop n.toNat :=
        hport.trans (congrArg (0x02#8 :: x :: y :: n :: ·) (List.take_append_drop n.toNat bytes).symm)
      refine ⟨_, step_of_encode hs hwf hbytes, rfl, ?_⟩
      rw [if_neg (by omega), if_neg (by omega), if_neg (by omega), if_neg (by omega), if_neg hlen]
      refine ⟨fault_of_atBoundary hs, rfl, (atBoundary_iff.mp hs).2, rfl, rfl, ?_⟩
      rw [completed_emitted, commandOps, imageOps_eq_flatMap, rowContributions_eq hy.1]
      split <;> simp only [List.flatMap_cons, List.flatMap_nil, List.append_nil, streamRun_map] <;> rfl

end Sys2Proof.Proofs
end

section
/-! SUPPORT. Cell numbers in a buffer of any width `w` (R21, R46): the cells of a sprite's columns and the bytes they get, and a
run of bytes read at a column and a page. -/

namespace Sys2Proof.Machine

theorem cellIndex_add_width {w x p : Nat} (hp : 1 ≤ p) : cellIndex w x p + w = cellIndex w x (p + 1) := by
  obtain ⟨q, rfl⟩ := Nat.exists_eq_add_of_le' hp
  simp only [cellIndex, Nat.add_sub_cancel, Nat.succ_mul]
  omega

theorem cellIndex_add {w x p : Nat} (hx : 1 ≤ x) (i : Nat) : cellIndex w x p + i = cellIndex w (x + i) p := by
  simp only [cellIndex]
  omega

/-- The primary cell of column `i` of a sprite, in the arithmetic of R91. -/
theorem cellIndex_pageOf {w x y : Nat} (hx : 1 ≤ x) (hy : 1 ≤ y) (i : Nat) :
    cellIndex w (x + i) (pageOf y) = (y - 1) / 8 * w + (x - 1) + i := by
  rw [← cellIndex_add hx, pageOf_eq hy, cellIndex, Nat.add_sub_cancel]

/-- Its spill cell: only the first page spills, and into the second. -/
theorem cellIndex_spillPage {w x y : Nat} (hx : 1 ≤ x) (hy : 1 ≤ y) (h8 : y ≤ 8) (i : Nat) :
    cellIndex w (x + i) (pageOf y + 1) = w + (x - 1) + i := by
  have hpage : pageOf y = 1 := by
    rw [pageOf_eq hy]
    omega
  rw [← cellIndex_add hx, hpage, cellIndex, Nat.add_sub_cancel, Nat.one_mul]

/-- The byte of the primary cell, in the arithmetic of R91 and R98. -/
theorem primaryByte_offsetOf {y : Nat} (hy : 1 ≤ y) (b : Byte) :
    primaryByte (offsetOf y) b = BitVec.ofNat 8 (b.toNat <<< ((y - 1) % 8)) := by
  rw [primaryByte_eq_mul, offsetOf_eq hy, Nat.shiftLeft_eq]

/-- The byte of the spill cell. -/
theorem spillByte_offsetOf {y : Nat} (hy : 1 ≤ y) (h8 : y ≤ 8) (b : Byte) :
    spillByte (offsetOf y) b = BitVec.ofNat 8 (b.toNat >>> (9 - y)) := by
  have hrows : 8 - offsetOf y = 9 - y := by
    rw [offsetOf_eq hy]
    omega
  rw [spillByte, trunc8, hrows]

/-- A run contributes nothing to a cell that none of its bytes goes to. -/
theorem runByte_eq_zero {a k : Nat} {bytes : List Byte} (h : ∀ i, i < bytes.length → k ≠ a + i) :
    runByte a bytes k = 0x00#8 := by
  unfold runByte
  split
  next hle =>
    have hend : bytes.length ≤ k - a := by
      by_contra hlt
      exact h (k - a) (by omega) (by omega)
    rw [List.getElem?_eq_none hend, Option.getD_none]
  next => rfl

/-- A run that stays in its row contributes to its own columns of its own page only. -/
theorem runByte_cellIndex {w x q col p : Nat} {c : List Byte} (f : Byte → Byte) (hx : 1 ≤ x) (hl : x + c.length ≤ w + 1)
    (hcol : 1 ≤ col ∧ col ≤ w) (hq : 1 ≤ q ∧ q ≤ 2) (hp : 1 ≤ p ∧ p ≤ 2) :
    runByte (cellIndex w x q) (c.map f) (cellIndex w col p) =
      if p = q ∧ x ≤ col ∧ col < x + c.length then f (c.getD (col - x) 0x00#8) else 0x00#8 := by
  split
  next hin =>
    obtain ⟨rfl, hle, hlt⟩ := hin
    have hstart : cellIndex w x p ≤ cellIndex w col p := by
      simp only [cellIndex]
      omega
    have hplace : cellIndex w col p - cellIndex w x p = col - x := by
      simp only [cellIndex]
      omega
    have hlen : col - x < c.length := by omega
    simp [runByte, hstart, hplace, hlen]
  next hout =>
    refine runByte_eq_zero fun i hi => ?_
    rw [List.length_map] at hi
    obtain rfl | ⟨rfl, rfl⟩ | ⟨rfl, rfl⟩ : p = q ∨ p = 1 ∧ q = 2 ∨ p = 2 ∧ q = 1 := by omega
    all_goals
      simp only [cellIndex]
      omega

end Sys2Proof.Machine
end

section
/-! SUPPORT. The picture of a placement on an empty place, pixel by pixel (R95, R96). -/

namespace Sys2Proof.Machine

/-- A bit of the byte a column contributes to page `p` (R93), as in `exists_mem_split_bit`. -/
theorem lookup_split_bit (y : Nat) (col : Byte) (p j : Nat) :
    (((split y col).lookup p).getD 0x00#8).getLsbD j = true ↔ ∃ b, (p, b) ∈ split y col ∧ b.getLsbD j = true := by
  rw [exists_mem_split_bit, lookup_split]
  by_cases hown : p = pageOf y
  · simp [hown]
  · by_cases hnext : hasSpill (pageOf y) (offsetOf y) = true ∧ p = pageOf y + 1
    · simp [hnext]
    · simp [hown, hnext, ← and_assoc]

/-- Pixel row `r` of column `col` of a placement on an empty place: bit `r - y` of its column there (R96). -/
theorem placedCell_bit {x y : Nat} (cols : List Byte) {cx r : Nat} (hy : 1 ≤ y ∧ y ≤ 16) (hr : 1 ≤ r ∧ r ≤ 16) :
    (placedCell x y cols cx ((r - 1) / 8 + 1) 0x00#8).getLsbD ((r - 1) % 8) =
      (decide (x ≤ cx ∧ cx < x + cols.length ∧ y ≤ r ∧ r ≤ y + 7) && (cols.getD (cx - x) 0x00#8).getLsbD (r - y)) := by
  by_cases hin : x ≤ cx ∧ cx < x + cols.length
  · have hpaint := Proofs.contributionsPaintTheColumnsRows y r (cols.getD (cx - x) 0x00#8) hy.1 hy.2 hr.1 hr.2
    rw [placedCell_inside hin, Bool.eq_iff_iff, lookup_split_bit, hpaint]
    simp [hin, and_assoc]
  · rw [placedCell_outside hin]
    simp [← and_assoc, hin]

end Sys2Proof.Machine
end

section
/-! SUPPORT. What a command ORs into each cell (`Contrib(cmd)` of R133), and for OR_PLACE which byte of which column that is. -/

namespace Sys2Proof.Machine

/-- The byte a command ORs into cell `a`: the primary and the spill run of OR_PLACE (R131, R133), nothing for the others. -/
def contrib : Instr → Nat → Byte
  | .orPlace w _ x y c, a =>
    runByte (orPlaceBase w.toNat x.toNat y.toNat) (c.map (primaryByte (offsetOf y.toNat))) a |||
      (if hasSpill (pageOf y.toNat) (offsetOf y.toNat) then
        runByte (orPlaceBase w.toNat x.toNat y.toNat + w.toNat) (c.map (spillByte (offsetOf y.toNat))) a
       else 0x00#8)
  | .placeColumn _ _ _, _ => 0x00#8
  | .placeImage _ _ _ _, _ => 0x00#8
  | .clear _, _ => 0x00#8
  | .flush _ _, _ => 0x00#8

/-- Every command but CLEAR maps the framebuffer to its OR with what the command contributes (R133). -/
theorem cell_completed {i : Instr} (h : ∀ size, i ≠ .clear size) (s : State) (a : Nat) :
    (completed i s).cell a = s.cell a ||| contrib i a := by
  cases i with
  | placeColumn x y col => exact BitVec.or_zero.symm
  | placeImage x y n c => exact BitVec.or_zero.symm
  | clear size => exact absurd rfl (h size)
  | orPlace w n x y c =>
    rw [completed, cell_orColumns, contrib, BitVec.or_assoc]
  | flush w x => exact BitVec.or_zero.symm

section

variable {w n x y : Byte} {c : List Byte}

/-- At column `col` of page `p` OR_PLACE contributes the byte that a placement of the same columns writes there (R93, R131). -/
theorem contrib_cellIndex {col p : Nat} (hx : 1 ≤ x.toNat) (hy : 1 ≤ y.toNat ∧ y.toNat ≤ 16)
    (hl : x.toNat + c.length ≤ w.toNat + 1) (hcol : 1 ≤ col ∧ col ≤ w.toNat) (hp : 1 ≤ p ∧ p ≤ 2) :
    contrib (.orPlace w n x y c) (cellIndex w.toNat col p) = placedCell x.toNat y.toNat c col p 0x00#8 := by
  have hpage := pageOf_range hy.1 hy.2
  have hprimary := runByte_cellIndex (primaryByte (offsetOf y.toNat)) hx hl hcol hpage hp
  rw [contrib, orPlaceBase, hprimary, cellIndex_add_width hpage.1, placedCell_eq]
  by_cases hspill : hasSpill (pageOf y.toNat) (offsetOf y.toNat) = true
  · have hone : pageOf y.toNat ≤ 1 := ((hasSpill_eq_true _ _).mp hspill).2
    rw [if_pos hspill, runByte_cellIndex _ hx hl hcol (by omega) hp]
    by_cases hin : x.toNat ≤ col ∧ col < x.toNat + c.length
    · by_cases hown : p = pageOf y.toNat
      · simp [hin, hown]
      · simp [hin, hown, hspill]
    · simp [hin]
  · simp [hspill, and_comm, ite_and]

/-- Column `i` goes into its primary cell shifted down by the row's offset (R98, R131). -/
theorem contrib_primary {i : Nat} (hx : 1 ≤ x.toNat) (hy : 1 ≤ y.toNat ∧ y.toNat ≤ 16)
    (hl : x.toNat + c.length ≤ w.toNat + 1) (hi : i < c.length) :
    contrib (.orPlace w n x y c) ((y.toNat - 1) / 8 * w.toNat + (x.toNat - 1) + i) =
      BitVec.ofNat 8 ((c.getD i 0x00#8).toNat <<< ((y.toNat - 1) % 8)) := by
  rw [← cellIndex_pageOf hx hy.1, contrib_cellIndex hx hy hl (by omega) (pageOf_range hy.1 hy.2), placedCell_eq,
    if_pos (by omega), if_pos rfl, Nat.add_sub_cancel_left, primaryByte_offsetOf hy.1]

/-- What passes the bottom of the first page goes into the cell of the same column of the second (R98, R131). -/
theorem contrib_spill {i : Nat} (hx : 1 ≤ x.toNat) (h2 : 2 ≤ y.toNat) (h8 : y.toNat ≤ 8)
    (hl : x.toNat + c.length ≤ w.toNat + 1) (hi : i < c.length) :
    contrib (.orPlace w n x y c) (w.toNat + (x.toNat - 1) + i) =
      BitVec.ofNat 8 ((c.getD i 0x00#8).toNat >>> (9 - y.toNat)) := by
  have hy : 1 ≤ y.toNat := by omega
  have hspill := (hasSpill_row_iff hy).mpr ⟨h2, h8⟩
  have hone : pageOf y.toNat ≤ 1 := ((hasSpill_eq_true _ _).mp hspill).2
  rw [← cellIndex_spillPage hx hy h8, contrib_cellIndex hx (by omega) hl (by omega) (by omega), placedCell_eq,
    if_pos (by omega), if_neg (by omega), if_pos ⟨hspill, rfl⟩, Nat.add_sub_cancel_left, spillByte_offsetOf hy h8]

/-- OR_PLACE contributes nothing to a cell outside its primary and its spill run (R131). -/
theorem contrib_eq_zero {a : Nat} (hx : 1 ≤ x.toNat) (hy : 1 ≤ y.toNat)
    (hprimary : ∀ i, i < c.length → a ≠ (y.toNat - 1) / 8 * w.toNat + (x.toNat - 1) + i)
    (hspill : ∀ i, i < c.length → 2 ≤ y.toNat → y.toNat ≤ 8 → a ≠ w.toNat + (x.toNat - 1) + i) :
    contrib (.orPlace w n x y c) a = 0x00#8 := by
  have hpage : 1 ≤ pageOf y.toNat := pageOf_eq hy ▸ Nat.le_add_left 1 _
  have hprimaryRun : runByte (cellIndex w.toNat x.toNat (pageOf y.toNat)) (c.map (primaryByte (offsetOf y.toNat))) a =
      0x00#8 := by
    refine runByte_eq_zero fun i hi => ?_
    rw [cellIndex_add hx, cellIndex_pageOf hx hy]
    exact hprimary i (by rwa [List.length_map] at hi)
  rw [contrib, orPlaceBase, cellIndex_add_width hpage, hprimaryRun, BitVec.zero_or]
  split
  next h =>
    obtain ⟨h2, h8⟩ := (hasSpill_row_iff hy).mp h
    refine runByte_eq_zero fun i hi => ?_
    rw [cellIndex_add hx, cellIndex_spillPage hx hy h8]
    exact hspill i (by rwa [List.length_map] at hi) h2 h8
  next => rfl

/-- Beyond the two pages of its buffer OR_PLACE contributes nothing (R97). -/
theorem contrib_beyond {a : Nat} (hx : 1 ≤ x.toNat) (hy : 1 ≤ y.toNat ∧ y.toNat ≤ 16)
    (hl : x.toNat + c.length ≤ w.toNat + 1) (ha : 2 * w.toNat ≤ a) : contrib (.orPlace w n x y c) a = 0x00#8 := by
  have hsecond : (y.toNat - 1) / 8 * w.toNat ≤ 1 * w.toNat := Nat.mul_le_mul_right _ (by omega)
  exact contrib_eq_zero hx hy.1 (fun i hi => by omega) fun i hi _ _ => by omega

/-- Everything OR_PLACE does to the pixels of its buffer (R135). -/
theorem pix_orPlace {col r : Nat} (hx : 1 ≤ x.toNat) (hy : 1 ≤ y.toNat ∧ y.toNat ≤ 16)
    (hl : x.toNat + c.length ≤ w.toNat + 1) (hcol : 1 ≤ col ∧ col ≤ w.toNat) (hr : 1 ≤ r ∧ r ≤ 16) (s : State) :
    (completed (.orPlace w n x y c) s).pix w.toNat col r = (s.pix w.toNat col r ||
      (decide (x.toNat ≤ col ∧ col < x.toNat + c.length ∧ y.toNat ≤ r ∧ r ≤ y.toNat + 7) &&
        (c.getD (col - x.toNat) 0x00#8).getLsbD (r - y.toNat))) := by
  have hplace : (r - 1) / 8 * w.toNat + (col - 1) = cellIndex w.toNat col ((r - 1) / 8 + 1) := rfl
  rw [State.pix, State.pix, cell_completed (by simp), BitVec.getLsbD_or, hplace,
    contrib_cellIndex hx hy hl hcol (by omega), placedCell_bit c hy hr]

end

end Sys2Proof.Machine
end

section
/-! SUPPORT. Commands of the framebuffer one after another: OR_PLACE commands in any order, the byte one of them alone leaves
after a CLEAR, and the whole draw cycle (R133, R134). -/

namespace Sys2Proof.Machine

/-- A state that differs in VFB at most, differs at most in what a command of the framebuffer may write (R130, R131). -/
theorem frame_of_vfb {s t : State} (h : t = { s with vfb := t.vfb }) :
    t = { s with latched := t.latched, fault := t.fault, cause := t.cause, vfb := t.vfb } := by
  rw [h]

theorem eq_orPlace_of_orPlaceOfWidth {i : Instr} {w : Byte} (h : orPlaceOfWidth w i = true) :
    ∃ n x y c, i = .orPlace w n x y c := by
  cases i with
  | orPlace w' n x y c => exact ⟨n, x, y, c, by rw [of_decide_eq_true h]⟩
  | placeColumn x y col => cases h
  | placeImage x y n c => cases h
  | clear size => cases h
  | flush w x => cases h

/-- A sequence of OR_PLACE commands completes, emits nothing, and ORs what each contributes into each cell (R133). -/
theorem execAll_orPlaces {body : List Instr}
    (hbody : ∀ i ∈ body, wellFormed i = true ∧ ∃ w, orPlaceOfWidth w i = true) {s : State} (hs : s.fault = false) :
    ∃ t, execAll body s = .next t ∧ t.fault = false ∧ t.emitted = s.emitted ∧
      ∀ a, t.cell a = (body.map (contrib · a)).foldl (· ||| ·) (s.cell a) := by
  induction body generalizing s with
  | nil => exact ⟨s, rfl, hs, rfl, fun a => rfl⟩
  | cons i body ih =>
    obtain ⟨⟨hwf, w, hor⟩, hothers⟩ := List.forall_mem_cons.mp hbody
    obtain ⟨n, x, y, c, rfl⟩ := eq_orPlace_of_orPlaceOfWidth hor
    obtain ⟨t, hexec, hfault, hemitted, hcells⟩ :=
      ih hothers ((completed_fault (.orPlace w n x y c) s).trans hs)
    refine ⟨t, ?_, hfault, ?_, fun a => ?_⟩
    · simp only [execAll, exec_of_wellFormed hs hwf, hexec]
    · rw [hemitted, completed_emitted, commandOps, List.append_nil]
    · rw [hcells, cell_completed (by simp), List.map_cons, List.foldl_cons]

/-- The size byte of a draw cycle's CLEAR is exact (R76). -/
theorem toNat_clearSize {w : Byte} (hw : w.toNat ≤ 50) : (BitVec.ofNat 8 (2 * w.toNat)).toNat = 2 * w.toNat := by
  rw [BitVec.toNat_ofNat]
  omega

theorem wellFormed_clearSize {w : Byte} (hw : w.toNat ≤ 50) : wellFormed (.clear (BitVec.ofNat 8 (2 * w.toNat))) = true := by
  refine wellFormed_iff.mpr ⟨operandFault_clear_eq_none.mpr ?_, rfl⟩
  rw [toNat_clearSize hw]
  omega

/-- What an OR_PLACE alone leaves after the CLEAR is what it contributes (R133, R134). -/
theorem drawnAlone_eq_contrib {i : Instr} {w w' : Byte} {s : State} {a : Nat} (hs : s.fault = false) (hw : w.toNat ≤ 50)
    (hwf : wellFormed i = true) (hor : orPlaceOfWidth w' i = true) (ha : a < 2 * w.toNat) :
    drawnAlone s w a i = contrib i a := by
  obtain ⟨n, x, y, c, rfl⟩ := eq_orPlace_of_orPlaceOfWidth hor
  have hcleared : (completed (.clear (BitVec.ofNat 8 (2 * w.toNat))) s).fault = false := by rwa [completed_fault]
  simp only [drawnAlone, execAll, exec_of_wellFormed hs (wellFormed_clearSize hw), exec_of_wellFormed hcleared hwf]
  rw [cell_completed (by simp), completed, cell_zeroCells, toNat_clearSize hw, if_pos ha, BitVec.zero_or]

/-- The operations of FLUSH, cell by cell (R132). -/
theorem streamRun_cells (x page : Nat) (s : State) (a count : Nat) :
    streamRun x page (s.cells a count) =
      .setCursor x page :: (List.range count).map fun i => .writeData (s.cell (a + i)) := by
  rw [streamRun, State.cells, List.map_map]
  rfl

/-- A draw cycle completes and streams, cell by cell, the OR of what its OR_PLACE commands contribute (R133, R221). -/
theorem execAll_drawCycle {w x : Byte} {body : List Instr} {s : State} (hs : s.fault = false)
    (hflush : wellFormed (.flush w x) = true) (hbody : ∀ i ∈ body, wellFormed i = true ∧ orPlaceOfWidth w i = true) :
    ∃ t, execAll (drawCycle w x body) s = .next t ∧ t.fault = false ∧
      t.emitted = s.emitted ++
        (.setCursor x.toNat 1 :: (List.range w.toNat).map fun a =>
          .writeData ((body.map (contrib · a)).foldl (· ||| ·) 0x00#8)) ++
        (.setCursor x.toNat 2 :: (List.range w.toNat).map fun a =>
          .writeData ((body.map (contrib · (w.toNat + a))).foldl (· ||| ·) 0x00#8)) := by
  obtain ⟨⟨-, hw⟩, -, -⟩ := operandFault_flush_eq_none.mp (wellFormed_iff.mp hflush).1
  have hclear := exec_of_wellFormed hs (wellFormed_clearSize hw)
  obtain ⟨t, hexec, hfault, hemitted, hcells⟩ :=
    execAll_orPlaces (fun i hi => ⟨(hbody i hi).1, w, (hbody i hi).2⟩) ((completed_fault _ s).trans hs)
  have hpage (b : Nat) (hb : b + w.toNat ≤ 2 * w.toNat) :
      ((List.range w.toNat).map fun a => SinkOp.writeData (t.cell (b + a))) =
        (List.range w.toNat).map fun a => .writeData ((body.map (contrib · (b + a))).foldl (· ||| ·) 0x00#8) := by
    refine List.map_congr_left fun a ha => ?_
    have hlt : b + a < 2 * w.toNat := by
      have := List.mem_range.mp ha
      omega
    rw [hcells, completed, cell_zeroCells, toNat_clearSize hw, if_pos hlt]
  refine ⟨completed (.flush w x) t, ?_, by rwa [completed_fault], ?_⟩
  · simp only [drawCycle, execAll, hclear, execAll_append _ _ hexec, exec_of_wellFormed hfault hflush]
  · rw [completed_emitted, commandOps, streamRun_cells, streamRun_cells, hpage 0 (by omega), hpage w.toNat (by omega),
      hemitted, completed_emitted, commandOps, List.append_nil, ← List.append_assoc]
    simp only [Nat.zero_add]

end Sys2Proof.Machine
end

section
/-! PROOFS. The framebuffer's commands: CLEAR, OR_PLACE and FLUSH with their operands in range, the algebra of OR_PLACE, the
draw cycle, and each command from its bytes. -/

namespace Sys2Proof.Proofs

open Machine

/-- Settles O23: the law `pix_orPlace`, read at a pixel of the sprite and at one beside it. -/
theorem orPlaceOrsItsPixels : Obligations.OrPlaceOrsItsPixels := by
  intro w n x y c s hs hlen hw1 hw50 hn hx hy1 hy16 hextent
  have hy : 1 ≤ y.toNat ∧ y.toNat ≤ 16 := ⟨hy1, hy16⟩
  have hl : x.toNat + c.length ≤ w.toNat + 1 := by omega
  have hwf : wellFormed (.orPlace w n x y c) = true :=
    wellFormed_iff.mpr ⟨operandFault_orPlace_eq_none.mpr (by omega), decide_eq_true hlen⟩
  refine ⟨_, exec_of_wellFormed hs hwf, orColumns_frame s _ _ _ _ c, fun i k hi hk hbottom => ?sprite,
    fun col r hcol1 hcolw hr1 hr16 hout => ?beside, fun a ha => ?beyond⟩
  case sprite =>
    rw [pix_orPlace hx hy hl (by omega) (by omega), decide_eq_true (by omega), Bool.true_and, Nat.add_sub_cancel_left,
      Nat.add_sub_cancel_left]
  case beside =>
    rw [pix_orPlace hx hy hl ⟨hcol1, hcolw⟩ ⟨hr1, hr16⟩, decide_eq_false (by omega), Bool.false_and, Bool.or_false]
  case beyond =>
    rw [cell_completed (by simp), contrib_beyond hx hy hl ha, BitVec.or_zero]

/-- Settles O25: every command but CLEAR ORs its contribution into each cell, and OR is idempotent, commutes and clears no
bit. -/
theorem orPlaceAlgebra : Obligations.OrPlaceAlgebra := by
  refine ⟨fun w n x y c s z hwf hs hz hzero => ?fromZero, fun w n x y c s hwf hs => ?idempotent,
    fun i j w w' s hi hj hwi hwj hs => ?commutes, fun i s t a k hexec hset hclear => ?onlyClear⟩
  case fromZero =>
    refine ⟨_, _, exec_of_wellFormed hs hwf, exec_of_wellFormed hz hwf, fun a ha => ?_⟩
    rw [cell_completed (by simp), cell_completed (by simp), hzero a ha, BitVec.zero_or]
  case idempotent =>
    refine ⟨_, _, exec_of_wellFormed hs hwf, exec_of_wellFormed (by rwa [completed_fault]) hwf, fun a => ?_⟩
    rw [cell_completed (by simp), cell_completed (by simp), BitVec.or_assoc, BitVec.or_self]
  case commutes =>
    obtain ⟨t, ht, -, -, htcells⟩ := execAll_orPlaces (body := [i, j])
      (List.forall_mem_cons.mpr ⟨⟨hi, w, hwi⟩, List.forall_mem_singleton.mpr ⟨hj, w', hwj⟩⟩) hs
    obtain ⟨u, hu, -, -, hucells⟩ := execAll_orPlaces (body := [j, i])
      (List.forall_mem_cons.mpr ⟨⟨hj, w', hwj⟩, List.forall_mem_singleton.mpr ⟨hi, w, hwi⟩⟩) hs
    refine ⟨t, u, ht, hu, fun a => ?_⟩
    calc t.cell a = s.cell a ||| contrib i a ||| contrib j a := htcells a
      _ = s.cell a ||| contrib j a ||| contrib i a := by ac_rfl
      _ = u.cell a := (hucells a).symm
  case onlyClear =>
    have hchanged : t.cell a ≠ s.cell a := fun h => by simp [h, hset] at hclear
    obtain ⟨-, rfl⟩ | ⟨-, c, -, rfl⟩ | ⟨-, -, -, rfl⟩ := exec_next hexec
    · exact absurd rfl hchanged
    · exact absurd rfl hchanged
    · by_cases hi : ∀ size, i ≠ .clear size
      · simp [cell_completed hi, hset] at hclear
      · obtain ⟨size, rfl⟩ : ∃ size, i = .clear size := by simpa using hi
        refine ⟨size, rfl, ?_⟩
        by_contra hkept
        exact hchanged (by rw [completed, cell_zeroCells, if_neg hkept])

/-- Settles O21: the laws of CLEAR's loop. -/
theorem clearZeroesItsCells : Obligations.ClearZeroesItsCells := by
  intro size s hs hsize
  have hwf : wellFormed (.clear size) = true := wellFormed_iff.mpr ⟨operandFault_clear_eq_none.mpr hsize, rfl⟩
  exact ⟨_, exec_of_wellFormed hs hwf, zeroCells_frame s _, cell_zeroCells s _⟩

/-- Settles O26: the operations of FLUSH, each of its two runs cell by cell. -/
theorem flushStreamsBothPages : Obligations.FlushStreamsBothPages := by
  intro w x s hs hw1 hw50 hx1 hx50 hextent
  have hwf : wellFormed (.flush w x) = true :=
    wellFormed_iff.mpr ⟨operandFault_flush_eq_none.mpr (by omega), rfl⟩
  rw [exec_of_wellFormed hs hwf, completed, commandOps, State.emit, streamRun_cells, streamRun_cells, ← List.append_assoc]
  simp only [Nat.zero_add]

/-- Settles O42: the law `execAll_drawCycle`, with each contribution read as what its OR_PLACE leaves alone. -/
theorem drawCycleStreamsTheOrOfItsSprites : Obligations.DrawCycleStreamsTheOrOfItsSprites := by
  intro w x body s hs hflush hbody
  obtain ⟨⟨-, hw⟩, -, -⟩ := operandFault_flush_eq_none.mp (wellFormed_iff.mp hflush).1
  obtain ⟨t, hexec, hfault, hemitted⟩ := execAll_drawCycle hs hflush hbody
  have halone {a : Nat} (ha : a < 2 * w.toNat) :
      SinkOp.writeData ((body.map (contrib · a)).foldl (· ||| ·) 0x00#8) =
        .writeData ((body.map (drawnAlone s w a)).foldl (· ||| ·) 0x00#8) := by
    rw [List.map_congr_left fun i hi => drawnAlone_eq_contrib hs hw (hbody i hi).1 (hbody i hi).2 ha]
  refine ⟨t, hexec, hfault, hemitted.trans ?_⟩
  rw [List.map_congr_left fun a ha => halone (a := a) ?first,
    List.map_congr_left fun a ha => halone (a := w.toNat + a) ?second]
  all_goals
    have := List.mem_range.mp ha
    omega

/-- Settles O22: a size that fails its check takes the fault, one in range zeroes its cells. -/
theorem clearFollowsItsRule : Obligations.ClearFollowsItsRule := by
  intro s size rest hs hport
  cases hchecks : operandFault (.clear size) with
  | some c =>
    refine ⟨_, step_of_badHeader hs hchecks rfl hport, rfl, ?_⟩
    have hchain := (clearChecks_failure size).symm.trans hchecks
    split_ifs at hchain ⊢
    cases hchain
    exact ⟨rfl, rfl, rfl⟩
  | none =>
    have hsize := operandFault_clear_eq_none.mp hchecks
    have hwf : wellFormed (.clear size) = true := wellFormed_iff.mpr ⟨hchecks, rfl⟩
    refine ⟨_, step_of_encode hs hwf hport, frame_of_vfb (zeroCells_frame _ _), ?_⟩
    rw [if_neg (by omega)]
    exact ⟨(completed_fault ..).trans (fault_of_atBoundary hs), completed_cause ..,
      (completed_latched ..).trans (atBoundary_iff.mp hs).2, cell_zeroCells _ _⟩

/-- Settles O27: a header that fails a check takes the fault of the table's chain; one that fails none streams its two runs. -/
theorem flushFollowsItsRule : Obligations.FlushFollowsItsRule := by
  intro s w x rest hs hport
  cases hchecks : operandFault (.flush w x) with
  | some c =>
    refine ⟨_, step_of_badHeader hs hchecks rfl hport, rfl, ?_⟩
    have hchain := (flushChecks_failure w x).symm.trans hchecks
    split_ifs at hchain ⊢ <;> cases hchain
    all_goals exact ⟨rfl, rfl, rfl⟩
  | none =>
    obtain ⟨hw, hx, hextent⟩ := operandFault_flush_eq_none.mp hchecks
    have hwf : wellFormed (.flush w x) = true := wellFormed_iff.mpr ⟨hchecks, rfl⟩
    refine ⟨_, step_of_encode hs hwf hport, rfl, ?_⟩
    rw [if_neg (by omega), if_neg (by omega), if_neg (by omega)]
    refine ⟨fault_of_atBoundary hs, rfl, (atBoundary_iff.mp hs).2,
      (s.cells 0 w.toNat).map .writeData, (s.cells w.toNat w.toNat).map .writeData, ?_, by simp, by simp,
      fun i hi => ⟨?_, ?_⟩⟩
    · rw [List.append_assoc]
      rfl
    · simp [State.cells, hi]
    · simp [State.cells, hi]

/-- Settles O24: a header that fails a check takes the fault of the table's chain; after one that fails none, part of the
payload is waited for and a whole payload ORs its primary and its spill run. -/
theorem orPlaceFollowsItsRule : Obligations.OrPlaceFollowsItsRule := by
  intro s w n x y bytes hs hport
  cases hchecks : operandFault (.orPlace w n x y []) with
  | some c =>
    refine ⟨_, step_of_badHeader hs hchecks rfl hport, rfl, ?_⟩
    have hchain := (orPlaceChecks_failure w n x y).symm.trans hchecks
    split_ifs at hchain ⊢ <;> cases hchain
    all_goals exact ⟨rfl, rfl, rfl, rfl, rfl⟩
  | none =>
    obtain ⟨hw, hn, hx, hy, hextent⟩ := operandFault_orPlace_eq_none.mp hchecks
    by_cases hlen : bytes.length < n.toNat
    · have hdecode : decode s.commandBytes = .incomplete := by
        rw [commandBytes_of_atBoundary hs, hport]
        exact (afterHeader_of_none hchecks).trans (takePayload_short hlen)
      refine ⟨_, step_of_incomplete (atBoundary_iff.mp hs).1 hdecode, rfl, ?_⟩
      rw [if_neg (by omega), if_neg (by omega), if_neg (by omega), if_neg (by omega), if_neg (by omega), if_pos hlen]
      exact ⟨fault_of_atBoundary (s := s) hs, rfl, rfl⟩
    · have htake : (bytes.take n.toNat).length = n.toNat := List.length_take_of_le (Nat.le_of_not_lt hlen)
      have hwf : wellFormed (.orPlace w n x y (bytes.take n.toNat)) = true :=
        wellFormed_iff.mpr ⟨hchecks, decide_eq_true htake⟩
      have hbytes : s.port = encode (.orPlace w n x y (bytes.take n.toNat)) ++ bytes.drop n.toNat :=
        hport.trans (congrArg (0x04#8 :: w :: n :: x :: y :: ·) (List.take_append_drop n.toNat bytes).symm)
      refine ⟨_, step_of_encode hs hwf hbytes, ?_, ?_⟩
      · rw [completed_port, completed_position]
        exact frame_of_vfb (orColumns_frame _ _ _ _ _ _)
      rw [if_neg (by omega), if_neg (by omega), if_neg (by omega), if_neg (by omega), if_neg (by omega), if_neg hlen]
      refine ⟨(completed_fault ..).trans (fault_of_atBoundary hs), completed_cause ..,
        (completed_latched ..).trans (atBoundary_iff.mp hs).2, completed_port .., completed_position .., fun a => ?_⟩
      have hl : x.toNat + (bytes.take n.toNat).length ≤ w.toNat + 1 := htake.symm ▸ hextent
      have hbyte {i : Nat} (hi : i < n.toNat) : (bytes.take n.toNat).getD i 0x00#8 = bytes.getD i 0x00#8 := by
        simp [hi]
      rw [cell_completed (by simp)]
      refine ⟨fun i hi ha => ?primary, fun i hi h2 h8 ha => ?spill, fun hprimary hspill => ?elsewhere⟩
      case primary =>
        rw [ha, contrib_primary hx.1 hy hl (htake.symm ▸ hi), hbyte hi]
        rfl
      case spill =>
        rw [ha, contrib_spill hx.1 h2 h8 hl (htake.symm ▸ hi), hbyte hi]
        rfl
      case elsewhere =>
        rw [← htake] at hprimary hspill
        exact (congrArg (s.cell a ||| ·) (contrib_eq_zero hx.1 hy.1 hprimary hspill)).trans BitVec.or_zero

end Sys2Proof.Proofs
end

section
/-! SUPPORT. The arithmetic of the reel (R160 to R163): the row of the center image, and the row of the circular strip that
a buffer row shows, as an image and a row of it. -/

namespace Sys2Proof.Machine

theorem reelPeriod_eq (n : Nat) : reelPeriod n = n * 9 := by rw [reelPeriod, reelHeight_eq]

theorem reelIndex_eq (pos : Nat) : reelIndex pos = pos / 9 := by rw [reelIndex, reelHeight_eq]

/-- The row of the center image (R162). -/
theorem reelRow_eq (pos : Nat) : reelRow pos = 9 - pos % 9 := by
  simp only [reelRow, reelTop, reelIndex_eq, reelHeight_eq]
  omega

theorem reelIndex_lt {n pos : Nat} (hpos : pos < reelPeriod n) : reelIndex pos < n := by
  rw [reelPeriod_eq] at hpos
  rw [reelIndex_eq]
  omega

/-- The image before, or the last one before image 0 (R163). -/
theorem reelPrevious_cases {n j : Nat} (hj : j < n) :
    reelPrevious n j < n ∧ (reelPrevious n j + 1 = j ∨ j = 0 ∧ reelPrevious n j + 1 = n) := by
  unfold reelPrevious
  split <;> omega

/-- The image after, or image 0 after the last one (R163). -/
theorem reelNext_cases {n j : Nat} (hj : j < n) :
    reelNext n j < n ∧ (reelNext n j = j + 1 ∨ j + 1 = n ∧ reelNext n j = 0) := by
  unfold reelNext
  split <;> omega

/-- The row of the circular strip that buffer row `r` shows at position `pos` (R165). -/
def stripRow (n pos r : Nat) : Nat := (pos + r + reelPeriod n - 9) % reelPeriod n

/-- A row of the strip, recognised up to whole turns of the reel. -/
theorem stripRow_of_turns {n pos r q : Nat} (k : Nat) (hq : q < reelPeriod n)
    (h : pos + r + reelPeriod n = q + 9 + k * reelPeriod n) : stripRow n pos r = q := by
  have hturns : pos + r + reelPeriod n - 9 = q + k * reelPeriod n := by omega
  rw [stripRow, hturns, Nat.add_mul_mod_self_right, Nat.mod_eq_of_lt hq]

section

variable {n pos r : Nat}

/-- Up to the separator above the center image the buffer shows the previous image; before image 0 that is the last one. -/
theorem stripRow_previous (hpos : pos < reelPeriod n) (hrow : pos % 9 + r ≤ 8) :
    stripRow n pos r = reelPrevious n (reelIndex pos) * 9 + (pos % 9 + r) := by
  obtain ⟨hlt, hprevious⟩ := reelPrevious_cases (reelIndex_lt hpos)
  rw [reelIndex_eq] at *
  obtain hbefore | ⟨hfirst, hlast⟩ := hprevious
  · refine stripRow_of_turns 1 ?_ ?_ <;> rw [reelPeriod_eq] <;> omega
  · refine stripRow_of_turns 0 ?_ ?_ <;> rw [reelPeriod_eq] <;> omega

/-- From its row on, and the separator below it, the buffer shows the center image. -/
theorem stripRow_center (hpos : pos < reelPeriod n) (hrow : 9 ≤ pos % 9 + r) (hend : pos % 9 + r ≤ 17) :
    stripRow n pos r = reelIndex pos * 9 + (pos % 9 + r - 9) := by
  have hlt := reelIndex_lt hpos
  rw [reelIndex_eq] at *
  refine stripRow_of_turns 1 ?_ ?_ <;> rw [reelPeriod_eq] <;> omega

/-- Below that separator the buffer shows the next image; after the last one that is image 0. -/
theorem stripRow_next (hpos : pos < reelPeriod n) (hrow : 18 ≤ pos % 9 + r) (hend : pos % 9 + r ≤ 26) :
    stripRow n pos r = reelNext n (reelIndex pos) * 9 + (pos % 9 + r - 18) := by
  obtain ⟨hlt, hnext⟩ := reelNext_cases (reelIndex_lt hpos)
  rw [reelIndex_eq] at *
  obtain hafter | ⟨hlast, hfirst⟩ := hnext
  · refine stripRow_of_turns 1 ?_ ?_ <;> rw [reelPeriod_eq] <;> omega
  · refine stripRow_of_turns 2 ?_ ?_ <;> rw [reelPeriod_eq] <;> omega

end

end Sys2Proof.Machine
end

section
/-! SUPPORT. The images that REEL_DRAW places (R163), the pixels they show on a cleared buffer, and the strip they show
together (R165). -/

namespace Sys2Proof.Machine

/-- Each image `Reel.draw` places, with its row: `draw_eq_map`. -/
def Reel.sprites (reel : Reel) (pos : Nat) : List (Nat × List Byte) :=
  [(reelRow pos, reel.image (reelIndex pos))] ++
  (if reelRow pos > 2 then
    [(1, preShift (Config.reelHeight + 2 - reelRow pos) (reel.image (reelPrevious reel.count (reelIndex pos))))]
  else []) ++
  (if reelRow pos + Config.reelHeight + 1 ≤ Config.height then
    [(reelRow pos + Config.reelHeight + 1, reel.image (reelNext reel.count (reelIndex pos)))]
  else [])

theorem draw_eq_map (reel : Reel) (w x : Byte) (pos : Nat) :
    reel.draw w x pos = (reel.sprites pos).map fun p => reel.place w x p.1 p.2 := by
  simp only [Reel.draw, Reel.sprites, List.map_append, List.map_cons, List.map_nil, apply_ite (List.map _)]

/-- Column `i` of a sprite at buffer row `r`, on an empty buffer (R96). -/
def spritePixel (i r : Nat) (p : Nat × List Byte) : Bool :=
  decide (p.1 ≤ r ∧ r ≤ p.1 + 7) && (p.2.getD i 0x00#8).getLsbD (r - p.1)

/-- A column has no bit below its eighth row, so the sprite's top row is the only bound. -/
theorem spritePixel_eq (i r y : Nat) (image : List Byte) :
    spritePixel i r (y, image) = (decide (y ≤ r) && (image.getD i 0x00#8).getLsbD (r - y)) := by
  by_cases hend : r ≤ y + 7
  · simp [spritePixel, hend]
  · have hbelow : (image.getD i 0x00#8).getLsbD (r - y) = false := BitVec.getLsbD_of_ge _ _ (by omega)
    rw [spritePixel, hbelow, Bool.and_false, Bool.and_false]

/-- A pre-shifted image at row 1 shows from its row `k` on (R163). -/
theorem spritePixel_preShift {i r : Nat} (hr : 1 ≤ r) (k : Nat) (image : List Byte) :
    spritePixel i r (1, preShift k image) = (image.getD i 0x00#8).getLsbD (k + (r - 1)) := by
  have hshift : (preShift k image).getD i 0x00#8 = image.getD i 0x00#8 >>> k := by
    have hmap := List.getD_map (l := image) (d := 0x00#8) (n := i) (fun c : Byte => c >>> k)
    rwa [BitVec.zero_ushiftRight] at hmap
  rw [spritePixel_eq, decide_eq_true hr, Bool.true_and, hshift, BitVec.getLsbD_ushiftRight]

section

variable {pos i r : Nat} (hr : 1 ≤ r ∧ r ≤ 16) (image : List Byte)

/-- The center image, its rows counted from the separator before it (R161, R162). -/
theorem spritePixel_center : spritePixel i r (reelRow pos, image) =
    (decide (9 ≤ pos % 9 + r) && (image.getD i 0x00#8).getLsbD (pos % 9 + r - 9)) := by
  have htop : reelRow pos ≤ r ↔ 9 ≤ pos % 9 + r := by rw [reelRow_eq]; omega
  have hbit : r - reelRow pos = pos % 9 + r - 9 := by rw [reelRow_eq]; omega
  rw [spritePixel_eq, decide_eq_decide.mpr htop, hbit]

include hr

/-- The previous image; where it is left out, none of its rows is on the buffer (R163). -/
theorem any_previousSprite :
    (if reelRow pos > 2 then [(1, preShift (Config.reelHeight + 2 - reelRow pos) image)] else []).any (spritePixel i r) =
      (image.getD i 0x00#8).getLsbD (pos % 9 + r) := by
  rw [reelRow_eq, reelHeight_eq]
  split
  next h =>
    have hbit : 8 + 2 - (9 - pos % 9) + (r - 1) = pos % 9 + r := by omega
    rw [List.any_cons, List.any_nil, Bool.or_false, spritePixel_preShift hr.1, hbit]
  next h => exact (BitVec.getLsbD_of_ge _ _ (by omega)).symm

/-- The next image; where it is left out, it would start below the buffer (R163). -/
theorem any_nextSprite :
    (if reelRow pos + Config.reelHeight + 1 ≤ Config.height then [(reelRow pos + Config.reelHeight + 1, image)]
      else []).any (spritePixel i r) =
      (decide (18 ≤ pos % 9 + r) && (image.getD i 0x00#8).getLsbD (pos % 9 + r - 18)) := by
  rw [reelRow_eq, reelHeight_eq, height_eq]
  split
  next h =>
    have htop : 9 - pos % 9 + 8 + 1 ≤ r ↔ 18 ≤ pos % 9 + r := by omega
    have hbit : r - (9 - pos % 9 + 8 + 1) = pos % 9 + r - 18 := by omega
    rw [List.any_cons, List.any_nil, Bool.or_false, spritePixel_eq, decide_eq_decide.mpr htop, hbit]
  next h => rw [decide_eq_false (by omega), Bool.false_and, List.any_nil]

/-- The pixels of the three images together, counted in rows from the top of the previous one. -/
theorem any_sprites (reel : Reel) :
    (reel.sprites pos).any (spritePixel i r) =
      (decide (9 ≤ pos % 9 + r) && ((reel.image (reelIndex pos)).getD i 0x00#8).getLsbD (pos % 9 + r - 9) ||
        ((reel.image (reelPrevious reel.count (reelIndex pos))).getD i 0x00#8).getLsbD (pos % 9 + r) ||
        decide (18 ≤ pos % 9 + r) &&
          ((reel.image (reelNext reel.count (reelIndex pos))).getD i 0x00#8).getLsbD (pos % 9 + r - 18)) := by
  rw [Reel.sprites, List.any_append, List.any_append, List.any_cons, List.any_nil, Bool.or_false, spritePixel_center,
    any_previousSprite hr, any_nextSprite hr]

end

/-- Column `i` at row `q` of the strip: row `q mod 9` of image `q div 9`, and the blank separator (R160, R165). -/
def Reel.stripPixel (reel : Reel) (i q : Nat) : Bool :=
  decide (q % 9 ≤ 7) && ((reel.image (q / 9)).getD i 0x00#8).getLsbD (q % 9)

/-- The separator is the row a column of eight bits has no bit for. -/
theorem stripPixel_eq (reel : Reel) (i j : Nat) {b : Nat} (hb : b ≤ 8) :
    reel.stripPixel i (j * 9 + b) = ((reel.image j).getD i 0x00#8).getLsbD b := by
  have hrow : (j * 9 + b) % 9 = b := by omega
  have himage : (j * 9 + b) / 9 = j := by omega
  rw [Reel.stripPixel, hrow, himage]
  by_cases hlast : b ≤ 7
  · rw [decide_eq_true hlast, Bool.true_and]
  · rw [BitVec.getLsbD_of_ge _ _ (by omega), Bool.and_false]

/-- On a cleared buffer the images REEL_DRAW places show the strip (R165). -/
theorem any_sprites_eq_stripPixel (reel : Reel) {pos i r : Nat} (hpos : pos < reelPeriod reel.count)
    (hr : 1 ≤ r ∧ r ≤ 16) :
    (reel.sprites pos).any (spritePixel i r) = reel.stripPixel i (stripRow reel.count pos r) := by
  rw [any_sprites hr reel]
  obtain hprevious | hcenter | hnext :
      pos % 9 + r ≤ 8 ∨ (9 ≤ pos % 9 + r ∧ pos % 9 + r ≤ 17) ∨ 18 ≤ pos % 9 + r := by omega
  · rw [stripRow_previous hpos hprevious, stripPixel_eq _ _ _ hprevious, decide_eq_false (by omega),
      decide_eq_false (by omega), Bool.false_and, Bool.false_or, Bool.false_and, Bool.or_false]
  · obtain ⟨htop, hend⟩ := hcenter
    rw [stripRow_center hpos htop hend, stripPixel_eq _ _ _ (by omega), decide_eq_true htop,
      BitVec.getLsbD_of_ge _ (pos % 9 + r) (by omega), decide_eq_false (by omega), Bool.true_and, Bool.or_false,
      Bool.false_and, Bool.or_false]
  · rw [stripRow_next hpos hnext (by omega), stripPixel_eq _ _ _ (by omega), decide_eq_true hnext,
      BitVec.getLsbD_of_ge _ (pos % 9 + r - 9) (by omega), BitVec.getLsbD_of_ge _ (pos % 9 + r) (by omega),
      Bool.and_false, Bool.false_or, Bool.false_or, Bool.true_and]

/-- Every image of the table is `columns` wide (R160). -/
theorem length_image {reel : Reel} (htable : ∀ image ∈ reel.table, image.length = reel.columns) {j : Nat}
    (hj : j < reel.count) : (reel.image j).length = reel.columns := by
  rw [Reel.image, List.getD_eq_getElem _ _ hj]
  exact htable _ (List.getElem_mem hj)

/-- What REEL_DRAW places starts on the buffer and is `columns` wide (R162, R163). -/
theorem sprites_fit {reel : Reel} {pos : Nat} (htable : ∀ image ∈ reel.table, image.length = reel.columns)
    (hpos : pos < reelPeriod reel.count) :
    ∀ p ∈ reel.sprites pos, (1 ≤ p.1 ∧ p.1 ≤ 16) ∧ p.2.length = reel.columns := by
  have hindex := reelIndex_lt hpos
  have hrow := reelRow_eq pos
  intro p hp
  simp only [Reel.sprites, reelHeight_eq, height_eq, List.mem_append, List.mem_singleton, List.mem_ite_nil_right] at hp
  obtain (rfl | ⟨-, rfl⟩) | ⟨hstart, rfl⟩ := hp
  · exact ⟨by omega, length_image htable hindex⟩
  · exact ⟨by omega, (List.length_map _).trans (length_image htable (reelPrevious_cases hindex).1)⟩
  · exact ⟨by omega, length_image htable (reelNext_cases hindex).1⟩

/-- A number of the caller below 256 is exact as a byte (R76). -/
theorem toNat_byte {k : Nat} (h : k < 256) : (BitVec.ofNat 8 k).toNat = k := by
  rw [BitVec.toNat_ofNat]
  exact Nat.mod_eq_of_lt h

section

variable {reel : Reel} {w x : Byte} (hw : w.toNat ≤ 50) (hx : 1 ≤ x.toNat) (hcolumns : 1 ≤ reel.columns)
  (hextent : x.toNat + reel.columns ≤ w.toNat + 1)

include hw hx hcolumns hextent

/-- The caller's numbers fit their bytes, and the command passes its checks (R162, R182). -/
theorem wellFormed_place {y : Nat} {image : List Byte} (hy : 1 ≤ y ∧ y ≤ 16) (hlen : image.length = reel.columns) :
    wellFormed (reel.place w x y image) = true := by
  have hcount : (BitVec.ofNat 8 reel.columns).toNat = reel.columns := toNat_byte (by omega)
  have hrow : (BitVec.ofNat 8 y).toNat = y := toNat_byte (by omega)
  refine wellFormed_iff.mpr ⟨operandFault_orPlace_eq_none.mpr ?_, decide_eq_true (hlen.trans hcount.symm)⟩
  omega

omit hw hcolumns in
/-- The law of R135 at a column of the reel. -/
theorem pix_place {y i r : Nat} {image : List Byte} (hy : 1 ≤ y ∧ y ≤ 16) (hlen : image.length = reel.columns)
    (hi : i < reel.columns) (hr : 1 ≤ r ∧ r ≤ 16) (s : State) :
    (completed (reel.place w x y image) s).pix w.toNat (x.toNat + i) r =
      (s.pix w.toNat (x.toNat + i) r || spritePixel i r (y, image)) := by
  have hrow : (BitVec.ofNat 8 y).toNat = y := toNat_byte (by omega)
  have hinside : x.toNat ≤ x.toNat + i ∧ x.toNat + i < x.toNat + image.length := by omega
  rw [Reel.place, pix_orPlace hx (hrow.symm ▸ hy) (hlen.symm ▸ hextent) (by omega) hr, hrow, Nat.add_sub_cancel_left,
    spritePixel]
  simp only [← and_assoc, hinside, true_and]

/-- Images placed one after another OR their pixels into the buffer (R133, R135). -/
theorem execAll_places {sprites : List (Nat × List Byte)} {s : State}
    (hfit : ∀ p ∈ sprites, (1 ≤ p.1 ∧ p.1 ≤ 16) ∧ p.2.length = reel.columns) (hs : s.fault = false) :
    ∃ t, execAll (sprites.map fun p => reel.place w x p.1 p.2) s = .next t ∧ t.fault = false ∧
      ∀ i r, i < reel.columns → 1 ≤ r → r ≤ 16 →
        t.pix w.toNat (x.toNat + i) r = (s.pix w.toNat (x.toNat + i) r || sprites.any (spritePixel i r)) := by
  induction sprites generalizing s with
  | nil => exact ⟨s, rfl, hs, fun i r _ _ _ => (Bool.or_false _).symm⟩
  | cons p sprites ih =>
    obtain ⟨⟨hy, hlen⟩, hothers⟩ := List.forall_mem_cons.mp hfit
    have hwf := wellFormed_place hw hx hcolumns hextent hy hlen
    obtain ⟨t, hexec, hfault, hpix⟩ := ih hothers ((completed_fault (reel.place w x p.1 p.2) s).trans hs)
    refine ⟨t, ?_, hfault, fun i r hi hr1 hr16 => ?_⟩
    · simp only [List.map_cons, execAll, exec_of_wellFormed hs hwf, hexec]
    · rw [hpix i r hi hr1 hr16, pix_place hx hextent hy hlen hi ⟨hr1, hr16⟩, List.any_cons, Bool.or_assoc]

end

/-- Every pixel of a cleared buffer is dark (R130). -/
theorem pix_of_cleared {s : State} {w col r : Nat} (hcleared : ∀ a, a < 2 * w → s.cell a = 0x00#8)
    (hcol : 1 ≤ col ∧ col ≤ w) (hr : 1 ≤ r ∧ r ≤ 16) : s.pix w col r = false := by
  have hpage : (r - 1) / 8 * w ≤ 1 * w := Nat.mul_le_mul_right w (by omega)
  rw [State.pix, hcleared _ (by omega), BitVec.getLsbD_zero]

end Sys2Proof.Machine
end

section
/-! PROOFS. The reel pseudo-instructions: the row of the center image, the scroll step, and the strip that REEL_DRAW
shows. -/

namespace Sys2Proof.Proofs

open Machine

/-- Settles O44: the row is 9 less a remainder by 9. -/
theorem reelRowStaysOnTheBuffer : Obligations.ReelRowStaysOnTheBuffer := by
  intro pos
  rw [reelRow_eq]
  omega

/-- Settles O45: the step is below the period unless it is the period, and then both sides are 0. -/
theorem rollStepWrapsAtThePeriod : Obligations.RollStepWrapsAtThePeriod := by
  intro n pos hpos
  rw [rollStep, ← reelPeriod_eq]
  split
  next hwrap =>
    rw [hwrap, Nat.mod_self]
    omega
  next hbelow =>
    have hlt : pos + 1 < reelPeriod n := by omega
    exact ⟨(Nat.mod_eq_of_lt hlt).symm, hlt⟩

/-- Settles O46: REEL_DRAW ORs the pixels of its images into a dark buffer (`execAll_places`), and those are the strip's
(`any_sprites_eq_stripPixel`). -/
theorem reelDrawShowsTheStrip : Obligations.ReelDrawShowsTheStrip := by
  intro reel w x pos s hs hw1 hw50 hx hcolumns hextent htable hpos hcleared
  obtain ⟨t, hexec, hfault, hpix⟩ :=
    execAll_places hw50 hx hcolumns (by omega) (sprites_fit htable hpos) hs
  refine ⟨t, (draw_eq_map reel w x pos).symm ▸ hexec, hfault, fun i r hi hr1 hr16 => ?_⟩
  rw [hpix i r hi hr1 hr16, pix_of_cleared hcleared (by omega) ⟨hr1, hr16⟩, Bool.false_or,
    any_sprites_eq_stripPixel reel hpos ⟨hr1, hr16⟩]
  rfl

end Sys2Proof.Proofs
end

section
/-! SUPPORT. The halted block under deliveries (R184), and a failing check's fault with its code (R181, R182). -/

namespace Sys2Proof.Machine

variable (s : State)

@[simp] theorem deliver_nil : s.deliver [] = s := by
  simp [State.deliver]

@[simp] theorem deliver_deliver (front bytes : List Byte) :
    (s.deliver front).deliver bytes = s.deliver (front ++ bytes) := by
  simp [State.deliver]

/-- A discard before a delivery is no matter for the discard after it: each byte is counted once. -/
theorem discardPort_deliver_discardPort (bytes : List Byte) :
    (s.discardPort.deliver bytes).discardPort = (s.deliver bytes).discardPort := by
  simp [State.discardPort, State.deliver, Nat.add_assoc]

variable {s}

/-- A delivery to a halted block is discarded whole in its step (R184). -/
theorem runDelivering_cons_of_halted (chunk : List Byte) (chunks : List (List Byte)) (hfault : s.fault = true)
    (hreset : s.resetPending = false) :
    runDelivering (chunk :: chunks) s = runDelivering chunks (s.deliver chunk).discardPort := by
  have hstep : step (s.deliver chunk) = .next (s.deliver chunk).discardPort := step_of_halted hreset hfault
  simp only [runDelivering, hstep]

/-- Once the port of a halted block is empty, a run comes to one discard of all that is delivered, in whatever pieces. -/
theorem runDelivering_discardPort (chunks : List (List Byte)) (hfault : s.fault = true)
    (hreset : s.resetPending = false) :
    runDelivering chunks s.discardPort = .next (s.deliver chunks.flatten).discardPort := by
  induction chunks generalizing s with
  | nil => rw [runDelivering, List.flatten_nil, deliver_nil]
  | cons chunk chunks ih =>
    rw [runDelivering_cons_of_halted (s := s.discardPort) chunk chunks hfault hreset, discardPort_deliver_discardPort,
      ih (s := s.deliver chunk) hfault hreset, deliver_deliver, List.flatten_cons]

/-- A command takes the fault its row of the table raises, with the code of R181. -/
theorem exec_of_faultCode {i : Instr} {failure : Option Cause} {code : Byte} (hs : s.fault = false)
    (hfailure : operandFault i = failure) (hcode : failure.map causeCode = some code) :
    exec i s = .next { s with fault := true, cause := code } := by
  obtain ⟨c, rfl, rfl⟩ := Option.map_eq_some_iff.mp hcode
  exact exec_of_operandFault hs hfailure

end Sys2Proof.Machine
end

section
/-! PROOFS. Faults and the halted state: the table of operand checks, what taking a fault leaves, and the discard until
reset. -/

namespace Sys2Proof.Proofs

open Machine

/-- Settles O33, by induction over the deliveries after the first (`runDelivering_discardPort`): together they are one discard
of all the bytes. -/
theorem haltedStateIsLeftOnlyByReset : Obligations.HaltedStateIsLeftOnlyByReset := by
  intro chunks s hfault hreset hne
  obtain ⟨chunk, chunks, rfl⟩ := List.exists_cons_of_ne_nil hne
  rw [runDelivering_cons_of_halted chunk chunks hfault hreset,
    runDelivering_discardPort (s := s.deliver chunk) chunks hfault hreset,
    deliver_deliver, ← List.flatten_cons, State.discardPort, deliver_port, List.length_append]
  rfl

/-- Settles O29: the table's chain for each row (`placeColumnChecks_failure` and its like), read as codes; the chain's end, where
no check fails, is excluded. -/
theorem operandChecksFollowTheTable : Obligations.OperandChecksFollowTheTable := by
  refine ⟨fun x y col s hs hout => exec_of_faultCode hs (placeColumnChecks_failure x y) ?placeColumn,
    fun x y n c s hs hout => exec_of_faultCode hs (placeImageChecks_failure x y n) ?placeImage,
    fun size s hs hout => exec_of_faultCode hs (clearChecks_failure size) ?clear,
    fun w n x y c s hs hout => exec_of_faultCode hs (orPlaceChecks_failure w n x y) ?orPlace,
    fun w x s hs hout => exec_of_faultCode hs (flushChecks_failure w x) ?flush⟩
  case clear => rw [if_pos hout, Option.map_some, causeCode]
  case placeColumn | placeImage | orPlace | flush =>
    split_ifs
    case neg => omega
    all_goals rfl

/-- Settles O30: the step is `takeFault` after `consume`, and a rejected answer gives its bytes back. -/
theorem faultIsPreciseAtCommandGranularity : Obligations.FaultIsPreciseAtCommandGranularity := by
  intro s c header rest hready hdecode
  refine ⟨⟨_, step_of_rejected hready hdecode, rfl⟩, ?_⟩
  cases header with
  | none =>
    obtain ⟨-, op, -, hbytes⟩ := of_decode_noHeader hdecode
    exact ⟨op, hbytes⟩
  | some i =>
    obtain ⟨-, hpayload, hbytes⟩ := of_decode_badHeader hdecode
    exact ⟨hpayload, hbytes⟩

/-- Settles O32: without a reset the step is the discard of the whole port, which leaves FAULT as it is. -/
theorem haltedBlockDiscards : Obligations.HaltedBlockDiscards := by
  intro s hfault
  refine ⟨fun hreset => ?discards, fun _ => exec_of_halted hfault, fun t hstep hclear => ?left, ?unfinished⟩
  case discards => exact ⟨s.discardPort, s.port, step_of_halted hreset hfault, by simp, id, rfl⟩
  case left =>
    cases stepsTo_of_step hstep with
    | reset hreset => exact hreset
    | discard _ _ => simp [hfault] at hclear
    | command hready _ _ | fault hready _ | wait hready _ => simp [(ready_iff.mp hready).2] at hfault
  case unfinished => simp [finished, hfault]

end Sys2Proof.Proofs
end

section
/-! PROOFS. What the framebuffer held before a draw cycle (R220, R221). -/

namespace Sys2Proof.Proofs

open Machine

/-- Settles O43: after the CLEAR the cycle streams what its OR_PLACE commands contribute (`execAll_drawCycle`), and the
operations it appends are written without the state it began in. -/
theorem drawCycleHidesTheOldBuffer : Obligations.DrawCycleHidesTheOldBuffer := by
  intro w x body s s' hs hs' hsame hflush hbody
  obtain ⟨t, hexec, -, hemitted⟩ := execAll_drawCycle hs hflush hbody
  obtain ⟨t', hexec', -, hemitted'⟩ := execAll_drawCycle hs' hflush hbody
  exact ⟨t, t', hexec, hexec', by rw [hemitted', hemitted, hsame]⟩

end Sys2Proof.Proofs
end
